-- ==== Sys2Proof/Word.lean ====
section
/-! DEFINITION. The bit-vector types of CORE: what the spec treats as bits (00_scope.md R3, R5). Everything is unsigned. -/

namespace Sys2Proof

/-- One memory cell, one general register, one timer, an `NN` immediate (R10, R15, R16, R63). -/
abbrev Byte := BitVec 8

/-- A 16-bit register that holds an address: `I`, `PC`, a stack entry (R12, R13, R14). -/
abbrev Addr := BitVec 16

/-- The 16-bit opcode word `op` (R60). -/
abbrev Opcode := BitVec 16

/-- The 4-bit field `X` or `Y` that names a general register; all sixteen values name one (R10). -/
abbrev Reg := BitVec 4

/-- The 4-bit immediate `N` (R61). -/
abbrev Nibble := BitVec 4

/-- The 12-bit address field `NNN` (R61). -/
abbrev Addr12 := BitVec 12

/-- The 16-bit key-state snapshot `KEYS`: bit `k` is 1 when hex key `k` is down (R21). -/
abbrev Keys := BitVec 16

/-- The register designator of `VF`, the implicit flag register (R11). -/
abbrev regF : Reg := 0xF#4

end Sys2Proof
end

