-- ==== Sys2Proof/Machine/Flags.lean ====
section
/-! DEFINITION. Every flag computation of the machine: the byte 0 or 1 that a flag-writing instruction leaves in `VF` (10_state.md R11). -/

namespace Sys2Proof.Machine

/-- A flag as the byte `VF` holds: always 0 or 1 (R11). -/
def flagByte (b : Bool) : Byte := if b then 0x01#8 else 0x00#8

/-- `ADD`: 1 if the 9-bit sum exceeds 255, else 0 (R107). -/
def carryFlag (a b : Byte) : Byte := flagByte (decide (a.toNat + b.toNat > 255))

/-- `SUB` and `SUBN`: 0 if the minuend is below the subtrahend (a borrow), else 1 (R108, R110). -/
def notBorrowFlag (minuend subtrahend : Byte) : Byte := flagByte (decide (¬ minuend.toNat < subtrahend.toNat))

/-- `SHR`: the bit shifted out, the old bit 0 (R109). -/
def shiftRightFlag (b : Byte) : Byte := flagByte (b.getLsbD 0)

/-- `SHL`: the bit shifted out, the old bit 7 (R111). -/
def shiftLeftFlag (b : Byte) : Byte := flagByte (b.getLsbD 7)

end Sys2Proof.Machine
end

