-- ==== Sys2Proof/Syntax.lean ====
section
/-! DEFINITION. The instructions of CORE: one constructor per row of spec/opcode_table.json (30_encoding.md R66). -/

namespace Sys2Proof

/-- The 34 instructions and the default row `UNIMPL`, in the order of the table. Ignored bits (R68) are no operand. -/
inductive Instr where
  /-- `CLS`, 00E0 (R140). -/
  | cls
  /-- `RET`, 00EE (R81). -/
  | ret
  /-- `JP NNN`, 1NNN (R82). -/
  | jp (nnn : Addr12)
  /-- `CALL NNN`, 2NNN (R83). -/
  | call (nnn : Addr12)
  /-- `SE Vx, NN`, 3XNN (R84). -/
  | seImm (x : Reg) (nn : Byte)
  /-- `SNE Vx, NN`, 4XNN (R85). -/
  | sneImm (x : Reg) (nn : Byte)
  /-- `SE Vx, Vy`, 5XY0 (R86). -/
  | seReg (x y : Reg)
  /-- `LD Vx, NN`, 6XNN (R101). -/
  | ldImm (x : Reg) (nn : Byte)
  /-- `ADD Vx, NN`, 7XNN (R102). -/
  | addImm (x : Reg) (nn : Byte)
  /-- `LD Vx, Vy`, 8XY0 (R103). -/
  | ldReg (x y : Reg)
  /-- `OR Vx, Vy`, 8XY1 (R104). -/
  | orReg (x y : Reg)
  /-- `AND Vx, Vy`, 8XY2 (R105). -/
  | andReg (x y : Reg)
  /-- `XOR Vx, Vy`, 8XY3 (R106). -/
  | xorReg (x y : Reg)
  /-- `ADD Vx, Vy`, 8XY4 (R107). -/
  | addReg (x y : Reg)
  /-- `SUB Vx, Vy`, 8XY5 (R108). -/
  | subReg (x y : Reg)
  /-- `SHR Vx, Vy`, 8XY6 (R109). -/
  | shrReg (x y : Reg)
  /-- `SUBN Vx, Vy`, 8XY7 (R110). -/
  | subnReg (x y : Reg)
  /-- `SHL Vx, Vy`, 8XYE (R111). -/
  | shlReg (x y : Reg)
  /-- `SNE Vx, Vy`, 9XY0 (R87). -/
  | sneReg (x y : Reg)
  /-- `LD I, NNN`, ANNN (R120). -/
  | ldI (nnn : Addr12)
  /-- `JP V0, NNN`, BNNN (R88). -/
  | jpV0 (nnn : Addr12)
  /-- `RND Vx, NN`, CXNN (R156). -/
  | rnd (x : Reg) (nn : Byte)
  /-- `DRW Vx, Vy, N`, DXYN (R141). -/
  | drw (x y : Reg) (n : Nibble)
  /-- `SKP Vx`, EX9E (R150). -/
  | skp (x : Reg)
  /-- `SKNP Vx`, EXA1 (R151). -/
  | sknp (x : Reg)
  /-- `LD Vx, DT`, FX07 (R153). -/
  | getDt (x : Reg)
  /-- `LD Vx, K`, FX0A (R152). -/
  | waitKey (x : Reg)
  /-- `LD DT, Vx`, FX15 (R154). -/
  | setDt (x : Reg)
  /-- `LD ST, Vx`, FX18 (R155). -/
  | setSt (x : Reg)
  /-- `ADD I, Vx`, FX1E (R121). -/
  | addI (x : Reg)
  /-- `LD F, Vx`, FX29 (R122). -/
  | glyph (x : Reg)
  /-- `LD B, Vx`, FX33 (R123). -/
  | bcd (x : Reg)
  /-- `LD [I], Vx`, FX55 (R124). -/
  | storeRegs (x : Reg)
  /-- `LD Vx, [I]`, FX65 (R125). -/
  | loadRegs (x : Reg)
  /-- `UNIMPL`: an opcode word that no other row selects (R67, R171). -/
  | unimpl (op : Opcode)
  deriving DecidableEq, Repr

end Sys2Proof
end

