-- ==== Sys2Proof/WellFormed.lean ====
section
/-! DEFINITION. Which terms of `Instr` stand for an instruction of the machine. Operand ranges are in the types; the one check left is
that `unimpl` holds a word of the unrecognized set (30_encoding.md R67). -/

namespace Sys2Proof

/-- The word is in the unrecognized set, by class (op div 4096), `NN` (op mod 256) and `N` (op mod 16), as the table of R67 lists it. -/
def unrecognized (op : Opcode) : Bool :=
  let c := op.toNat / 4096
  let nn := op.toNat % 256
  let n := op.toNat % 16
  if c = 0x0 then nn ∉ [0xE0, 0xEE]
  else if c = 0x8 then n ∈ [0x8, 0x9, 0xA, 0xB, 0xC, 0xD, 0xF]
  else if c = 0xE then nn ∉ [0x9E, 0xA1]
  else if c = 0xF then nn ∉ [0x07, 0x0A, 0x15, 0x18, 0x1E, 0x29, 0x33, 0x55, 0x65]
  else false

/-- The term stands for an instruction: an `unimpl` holds an unrecognized word; every other constructor's operands are whole ranges. -/
def Instr.wellFormed : Instr → Bool
  | .cls | .ret => true
  | .jp _ | .call _ | .ldI _ | .jpV0 _ => true
  | .seImm _ _ | .sneImm _ _ | .ldImm _ _ | .addImm _ _ | .rnd _ _ => true
  | .seReg _ _ | .sneReg _ _ | .ldReg _ _ | .orReg _ _ | .andReg _ _ | .xorReg _ _ => true
  | .addReg _ _ | .subReg _ _ | .shrReg _ _ | .subnReg _ _ | .shlReg _ _ => true
  | .drw _ _ _ => true
  | .skp _ | .sknp _ | .getDt _ | .waitKey _ | .setDt _ | .setSt _ => true
  | .addI _ | .glyph _ | .bcd _ | .storeRegs _ | .loadRegs _ => true
  | .unimpl op => unrecognized op

end Sys2Proof
end

