-- ==== Sys2Proof/Decode.lean ====
section
/-! DEFINITION. The fields of an opcode word, the decoder (total over all 65536 words), the encoder, and the opcode map's masks
(30_encoding.md R60 to R68). -/

namespace Sys2Proof

/-! ### Fields (R61) -/

/-- `C = op[15:12]`, the opcode class. -/
def opClass (op : Opcode) : BitVec 4 := op.extractLsb' 12 4
/-- `X = op[11:8]`. -/
def fieldX (op : Opcode) : Reg := op.extractLsb' 8 4
/-- `Y = op[7:4]`. -/
def fieldY (op : Opcode) : Reg := op.extractLsb' 4 4
/-- `N = op[3:0]`. -/
def fieldN (op : Opcode) : Nibble := op.extractLsb' 0 4
/-- `NN = op[7:0]`. -/
def fieldNN (op : Opcode) : Byte := op.extractLsb' 0 8
/-- `NNN = op[11:0]`. -/
def fieldNNN (op : Opcode) : Addr12 := op.extractLsb' 0 12

/-! ### The decoder (R65, R66, R67)

Dispatch is on the class; classes 0x0, 0xE and 0xF then dispatch on `NN`, class 0x8 on `N`, and no other bit is looked at (R68). -/

/-- Class 0x0: keyed by `NN`; `X` is ignored. -/
def decodeClass0 (op : Opcode) : Instr :=
  match fieldNN op with
  | 0xE0#8 => .cls
  | 0xEE#8 => .ret
  | _ => .unimpl op

/-- Class 0x8: keyed by `N`. -/
def decodeClass8 (op : Opcode) : Instr :=
  match fieldN op with
  | 0x0#4 => .ldReg (fieldX op) (fieldY op)
  | 0x1#4 => .orReg (fieldX op) (fieldY op)
  | 0x2#4 => .andReg (fieldX op) (fieldY op)
  | 0x3#4 => .xorReg (fieldX op) (fieldY op)
  | 0x4#4 => .addReg (fieldX op) (fieldY op)
  | 0x5#4 => .subReg (fieldX op) (fieldY op)
  | 0x6#4 => .shrReg (fieldX op) (fieldY op)
  | 0x7#4 => .subnReg (fieldX op) (fieldY op)
  | 0xE#4 => .shlReg (fieldX op) (fieldY op)
  | _ => .unimpl op

/-- Class 0xE: keyed by `NN`. -/
def decodeClassE (op : Opcode) : Instr :=
  match fieldNN op with
  | 0x9E#8 => .skp (fieldX op)
  | 0xA1#8 => .sknp (fieldX op)
  | _ => .unimpl op

/-- Class 0xF: keyed by `NN`. -/
def decodeClassF (op : Opcode) : Instr :=
  match fieldNN op with
  | 0x07#8 => .getDt (fieldX op)
  | 0x0A#8 => .waitKey (fieldX op)
  | 0x15#8 => .setDt (fieldX op)
  | 0x18#8 => .setSt (fieldX op)
  | 0x1E#8 => .addI (fieldX op)
  | 0x29#8 => .glyph (fieldX op)
  | 0x33#8 => .bcd (fieldX op)
  | 0x55#8 => .storeRegs (fieldX op)
  | 0x65#8 => .loadRegs (fieldX op)
  | _ => .unimpl op

/-- The decoder: a pure function, total over all 65536 words; an unmatched key is `unimpl`, never a neighbour (R61, R65). -/
def decode (op : Opcode) : Instr :=
  match opClass op with
  | 0x0#4 => decodeClass0 op
  | 0x1#4 => .jp (fieldNNN op)
  | 0x2#4 => .call (fieldNNN op)
  | 0x3#4 => .seImm (fieldX op) (fieldNN op)
  | 0x4#4 => .sneImm (fieldX op) (fieldNN op)
  | 0x5#4 => .seReg (fieldX op) (fieldY op)
  | 0x6#4 => .ldImm (fieldX op) (fieldNN op)
  | 0x7#4 => .addImm (fieldX op) (fieldNN op)
  | 0x8#4 => decodeClass8 op
  | 0x9#4 => .sneReg (fieldX op) (fieldY op)
  | 0xA#4 => .ldI (fieldNNN op)
  | 0xB#4 => .jpV0 (fieldNNN op)
  | 0xC#4 => .rnd (fieldX op) (fieldNN op)
  | 0xD#4 => .drw (fieldX op) (fieldY op) (fieldN op)
  | 0xE#4 => decodeClassE op
  | _ => decodeClassF op

/-- Why a sequence of bytes is not an instruction: there are fewer than two of them (R60). -/
inductive DecodeError where
  /-- Only `available` bytes are there; every instruction is exactly two bytes. -/
  | tooShort (available : Nat)
  deriving DecidableEq, Repr

/-- The opcode word of two bytes, big-endian: the byte at the lower address is the high one (20_memory.md R43). -/
def assembleWord (hi lo : Byte) : Opcode := hi ++ lo

/-- Decodes the instruction at the head of a byte sequence and gives the rest; total, rejecting a short sequence by name. -/
def decodeBytes : List Byte → Except DecodeError (Instr × List Byte)
  | hi :: lo :: rest => .ok (decode (assembleWord hi lo), rest)
  | short => .error (.tooShort short.length)

/-! ### The encoder: the canonical encodings of R62, R66 (ignored bits 0, R68) -/

/-- A word of class and address, `C ## NNN` (R62, format `NNN`). -/
def wordNNN (c : BitVec 4) (nnn : Addr12) : Opcode := c ++ nnn
/-- A word of class, `X` and `NN`, `C ## X ## NN` (R62, formats `XNN`, `Xss`, `iss`). -/
def wordXNN (c : BitVec 4) (x : Reg) (nn : Byte) : Opcode := c ++ x ++ nn
/-- A word of class, `X`, `Y` and `N`, `C ## X ## Y ## N` (R62, formats `XYN`, `XYs`, `XYi`). -/
def wordXYN (c : BitVec 4) (x y : Reg) (n : Nibble) : Opcode := c ++ x ++ y ++ n

/-- The canonical opcode word of an instruction. -/
def encode : Instr → Opcode
  | .cls => 0x00E0#16
  | .ret => 0x00EE#16
  | .jp nnn => wordNNN 0x1#4 nnn
  | .call nnn => wordNNN 0x2#4 nnn
  | .seImm x nn => wordXNN 0x3#4 x nn
  | .sneImm x nn => wordXNN 0x4#4 x nn
  | .seReg x y => wordXYN 0x5#4 x y 0x0#4
  | .ldImm x nn => wordXNN 0x6#4 x nn
  | .addImm x nn => wordXNN 0x7#4 x nn
  | .ldReg x y => wordXYN 0x8#4 x y 0x0#4
  | .orReg x y => wordXYN 0x8#4 x y 0x1#4
  | .andReg x y => wordXYN 0x8#4 x y 0x2#4
  | .xorReg x y => wordXYN 0x8#4 x y 0x3#4
  | .addReg x y => wordXYN 0x8#4 x y 0x4#4
  | .subReg x y => wordXYN 0x8#4 x y 0x5#4
  | .shrReg x y => wordXYN 0x8#4 x y 0x6#4
  | .subnReg x y => wordXYN 0x8#4 x y 0x7#4
  | .shlReg x y => wordXYN 0x8#4 x y 0xE#4
  | .sneReg x y => wordXYN 0x9#4 x y 0x0#4
  | .ldI nnn => wordNNN 0xA#4 nnn
  | .jpV0 nnn => wordNNN 0xB#4 nnn
  | .rnd x nn => wordXNN 0xC#4 x nn
  | .drw x y n => wordXYN 0xD#4 x y n
  | .skp x => wordXNN 0xE#4 x 0x9E#8
  | .sknp x => wordXNN 0xE#4 x 0xA1#8
  | .getDt x => wordXNN 0xF#4 x 0x07#8
  | .waitKey x => wordXNN 0xF#4 x 0x0A#8
  | .setDt x => wordXNN 0xF#4 x 0x15#8
  | .setSt x => wordXNN 0xF#4 x 0x18#8
  | .addI x => wordXNN 0xF#4 x 0x1E#8
  | .glyph x => wordXNN 0xF#4 x 0x29#8
  | .bcd x => wordXNN 0xF#4 x 0x33#8
  | .storeRegs x => wordXNN 0xF#4 x 0x55#8
  | .loadRegs x => wordXNN 0xF#4 x 0x65#8
  | .unimpl op => op

/-- The two bytes of an opcode word as memory holds them, the high byte at the lower address (R43). -/
def wordBytes (op : Opcode) : List Byte := [op.extractLsb' 8 8, op.extractLsb' 0 8]

/-! ### The opcode map as masks (R66): a word `op` selects an instruction's row when `op AND mask = match` -/

/-- The `mask` column of the instruction's row; `UNIMPL`, the default row, has mask 0. -/
def Instr.mask : Instr → Opcode
  | .cls | .ret => 0xF0FF#16
  | .jp _ | .call _ | .ldI _ | .jpV0 _ => 0xF000#16
  | .seImm _ _ | .sneImm _ _ | .ldImm _ _ | .addImm _ _ | .rnd _ _ => 0xF000#16
  | .seReg _ _ | .sneReg _ _ => 0xF000#16
  | .ldReg _ _ | .orReg _ _ | .andReg _ _ | .xorReg _ _ | .addReg _ _ | .subReg _ _ | .shrReg _ _ | .subnReg _ _ | .shlReg _ _ => 0xF00F#16
  | .drw _ _ _ => 0xF000#16
  | .skp _ | .sknp _ | .getDt _ | .waitKey _ | .setDt _ | .setSt _ | .addI _ | .glyph _ | .bcd _ | .storeRegs _ | .loadRegs _ => 0xF0FF#16
  | .unimpl _ => 0x0000#16

/-- The `match` column of the instruction's row. -/
def Instr.pattern : Instr → Opcode
  | .cls => 0x00E0#16
  | .ret => 0x00EE#16
  | .jp _ => 0x1000#16
  | .call _ => 0x2000#16
  | .seImm _ _ => 0x3000#16
  | .sneImm _ _ => 0x4000#16
  | .seReg _ _ => 0x5000#16
  | .ldImm _ _ => 0x6000#16
  | .addImm _ _ => 0x7000#16
  | .ldReg _ _ => 0x8000#16
  | .orReg _ _ => 0x8001#16
  | .andReg _ _ => 0x8002#16
  | .xorReg _ _ => 0x8003#16
  | .addReg _ _ => 0x8004#16
  | .subReg _ _ => 0x8005#16
  | .shrReg _ _ => 0x8006#16
  | .subnReg _ _ => 0x8007#16
  | .shlReg _ _ => 0x800E#16
  | .sneReg _ _ => 0x9000#16
  | .ldI _ => 0xA000#16
  | .jpV0 _ => 0xB000#16
  | .rnd _ _ => 0xC000#16
  | .drw _ _ _ => 0xD000#16
  | .skp _ => 0xE09E#16
  | .sknp _ => 0xE0A1#16
  | .getDt _ => 0xF007#16
  | .waitKey _ => 0xF00A#16
  | .setDt _ => 0xF015#16
  | .setSt _ => 0xF018#16
  | .addI _ => 0xF01E#16
  | .glyph _ => 0xF029#16
  | .bcd _ => 0xF033#16
  | .storeRegs _ => 0xF055#16
  | .loadRegs _ => 0xF065#16
  | .unimpl _ => 0x0000#16

/-! ### The host's view of the decoder -/

/-- The opcode word that the host's table numbering `(nbits, w)` names: bits at and above `nbits` are 0. -/
def tableWord (nbits w : Nat) : Opcode := BitVec.ofNat 16 (w % 2 ^ nbits)

/-- The instruction the decoder reads from the table's word `w` of `nbits` bits, laid out in memory order and decoded as bytes. No
instruction has more than 16 bits (R60), so a longer word is refused. -/
def decodeTableWord (nbits w : Nat) : Option Instr :=
  if nbits ≤ 16 then
    match decodeBytes (wordBytes (tableWord nbits w)) with
    | .ok (i, _) => some i
    | .error _ => none
  else none

end Sys2Proof
end

