-- ==== Sys2Proof/Config.lean ====
section
/-! DEFINITION. The parameters of CORE (00_scope.md R3): the fixed ones as numbers, the open ones (`MEM_INIT`, the `KEYS` and `RAND`
inputs) as constants with no body, about which nothing can be proved. `STACK_DEPTH` = 16, `FB_W` = 64 and `FB_H` = 32 stand in the types of
State's fields; the font `GLYPH_ROM` stands in Machine/Glyphs.lean. -/

namespace Sys2Proof.Config

/-- `MEM_SIZE`: bytes of memory, addresses 0x000 to 0xFFF (R3, R40). -/
abbrev memSize : Nat := 4096

/-- `PROG_BASE`: the load address and the reset value of `PC` (R3, R26, R201). -/
abbrev progBase : Nat := 0x200

/-- `GLYPH_BASE`: the address of the glyph of digit 0 (R3, R47). -/
abbrev glyphBase : Nat := 0x050

/-- The exclusive end of the glyph region (R47, 90_conflicts.md C1). -/
abbrev glyphEnd : Nat := 0x0A0

/-- `MEM_INIT`: the byte that an address outside the glyph region holds at reset, "any byte" (R3, R26). A FREE VALUE (log entry 1). -/
opaque memInit : Nat → Byte

/-- The `KEYS` input that the n-th instruction to read the key state sees (R21, R184). A FREE VALUE (log entry 3). -/
opaque keys : Nat → Keys

/-- The `RAND` input of the n-th `RND` executed (R22, R186). A FREE VALUE (log entry 4). -/
opaque rand : Nat → Byte

end Sys2Proof.Config
end

