-- ==== Sys2Proof/Machine/Glyphs.lean ====
section
/-! DEFINITION. `GLYPH_ROM`, the sixteen 5-byte glyphs at 0x050 to 0x09F (20_memory.md R47, R48), and the address of a glyph. -/

namespace Sys2Proof.Machine

/-- The glyphs of digits 0 to 7, rows 0 to 4 of each (R48). PRESUMED: the family's customary font (log entry 2), unsafe. -/
def glyphRomLow : List Byte :=
  [0xF0#8, 0x90#8, 0x90#8, 0x90#8, 0xF0#8] ++ [0x20#8, 0x60#8, 0x20#8, 0x20#8, 0x70#8] ++
  [0xF0#8, 0x10#8, 0xF0#8, 0x80#8, 0xF0#8] ++ [0xF0#8, 0x10#8, 0xF0#8, 0x10#8, 0xF0#8] ++
  [0x90#8, 0x90#8, 0xF0#8, 0x10#8, 0x10#8] ++ [0xF0#8, 0x80#8, 0xF0#8, 0x10#8, 0xF0#8] ++
  [0xF0#8, 0x80#8, 0xF0#8, 0x90#8, 0xF0#8] ++ [0xF0#8, 0x10#8, 0x20#8, 0x40#8, 0x40#8]

/-- The glyphs of digits 8 to F, rows 0 to 4 of each (R48). PRESUMED: the family's customary font (log entry 2), unsafe. -/
def glyphRomHigh : List Byte :=
  [0xF0#8, 0x90#8, 0xF0#8, 0x90#8, 0xF0#8] ++ [0xF0#8, 0x90#8, 0xF0#8, 0x10#8, 0xF0#8] ++
  [0xF0#8, 0x90#8, 0xF0#8, 0x90#8, 0x90#8] ++ [0xE0#8, 0x90#8, 0xE0#8, 0x90#8, 0xE0#8] ++
  [0xF0#8, 0x80#8, 0x80#8, 0x80#8, 0xF0#8] ++ [0xE0#8, 0x90#8, 0x90#8, 0x90#8, 0xE0#8] ++
  [0xF0#8, 0x80#8, 0xF0#8, 0x80#8, 0xF0#8] ++ [0xF0#8, 0x80#8, 0xF0#8, 0x80#8, 0x80#8]

/-- `GLYPH_ROM`: the 80 bytes of the glyph region at reset (R48). -/
def glyphRom : List Byte := glyphRomLow ++ glyphRomHigh

/-- `glyphAddress(d)`: the base of digit `d`'s 5-byte sprite, `0x050 + 5 * d` (R47). -/
def glyphAddress (d : Nibble) : Addr := 0x050#16 + 5#16 * d.setWidth 16

end Sys2Proof.Machine
end

