-- ==== Sys2Proof/Machine/Memory.lean ====
section
/-! DEFINITION. Memory as data: a list of cells, and the operations on it (20_memory.md R40 to R43, R47, R50).

A cell is listed when it has been written and does not hold what its address is known to hold unwritten. An unlisted address in the
glyph region holds its `GLYPH_ROM` byte; an unlisted address elsewhere holds the free value `MEM_INIT` (log entry 1). -/

namespace Sys2Proof.Machine

/-- What an unlisted address is KNOWN to hold: the glyph byte in 0x050 to 0x09F, and nothing known elsewhere (R26, R47). -/
def Memory.unlisted (a : Nat) : Option Byte :=
  if Config.glyphBase ≤ a ∧ a < Config.glyphEnd then glyphRom[a - Config.glyphBase]? else none

/-- What is known of the byte at `a`: the listed byte, or what an unlisted address is known to hold. -/
def Memory.lookup : List Host.Cell → Nat → Option Byte
  | [], a => Memory.unlisted a
  | (b, v) :: rest, a => if a = b then some v else Memory.lookup rest a

/-- `MEM[a]`: the byte that address `a` holds; `MEM_INIT(a)` where nothing is known of it (R3, R26). -/
def Memory.byteAt (m : List Host.Cell) (a : Nat) : Byte :=
  match Memory.lookup m a with
  | some v => v
  | none => Config.memInit a

/-- The cells without those of address `a`. -/
def Memory.erase (a : Nat) : List Host.Cell → List Host.Cell
  | [] => []
  | (b, w) :: rest => if b = a then Memory.erase a rest else (b, w) :: Memory.erase a rest

/-- The cell `(a, v)` in its place among cells with rising addresses. -/
def Memory.insert (a : Nat) (v : Byte) : List Host.Cell → List Host.Cell
  | [] => [(a, v)]
  | (b, w) :: rest => if a < b then (a, v) :: (b, w) :: rest else (b, w) :: Memory.insert a v rest

/-- `MEM[a] <- v` on the list of cells, keeping its canonical form; no other address is touched (R42). A byte that equals what the
unlisted address is known to hold is not listed. -/
def Memory.set (a : Nat) (v : Byte) (m : List Host.Cell) : List Host.Cell :=
  if Memory.unlisted a = some v then Memory.erase a m else Memory.insert a v (Memory.erase a m)

/-- The canonical form from address `lo` up: addresses strictly rising and inside memory, no cell that says only what is known without it. -/
def Memory.wfFrom : Nat → List Host.Cell → Bool
  | _, [] => true
  | lo, (a, v) :: rest =>
    decide (lo ≤ a) && decide (a < Config.memSize) && decide (Memory.unlisted a ≠ some v) && Memory.wfFrom (a + 1) rest

/-- The canonical form of memory. -/
def Memory.wf (m : List Host.Cell) : Bool := Memory.wfFrom 0 m

/-- `MemRead(addr, 1)`, the document's `readByte`: fails when the address is out of range; no side effect (R41). -/
def Memory.readByte (m : List Host.Cell) (a : Nat) : Option Byte :=
  if a < Config.memSize then some (Memory.byteAt m a) else none

/-- `MemWrite(addr, 1, v)`, the document's `writeByte`: fails when the address is out of range (R42). -/
def Memory.writeByte (m : List Host.Cell) (a : Nat) (v : Byte) : Option (List Host.Cell) :=
  if a < Config.memSize then some (Memory.set a v m) else none

/-- The `n` bytes at `a`, `a + 1`, ..., lowest address first; fails as a whole when one of them is out of range (R50, R52). -/
def Memory.readBlock (m : List Host.Cell) (a : Nat) : Nat → Option (List Byte)
  | 0 => some []
  | n + 1 =>
    match Memory.readByte m a, Memory.readBlock m (a + 1) n with
    | some b, some bs => some (b :: bs)
    | _, _ => none

/-- Writes bytes at `a`, `a + 1`, ..., lowest address first; fails as a whole when one address is out of range (R50, R52, R53). -/
def Memory.writeBlock (m : List Host.Cell) (a : Nat) : List Byte → Option (List Host.Cell)
  | [] => some m
  | v :: vs =>
    match Memory.writeByte m a v with
    | some m' => Memory.writeBlock m' (a + 1) vs
    | none => none

end Sys2Proof.Machine
end

