-- ==== Sys2Proof/Machine/State.lean ====
section
/-! DEFINITION. The state of CORE (10_state.md), its reset value (R26, R200), and the reasons a step could stop. -/

namespace Sys2Proof.Machine

/-- The five conditions of R170. -/
inductive Condition where
  /-- Code 1, recoverable: the fetched word is in the unrecognized set (R171). -/
  | unimplementedInstruction
  /-- Code 2, recoverable: a data address the instruction would touch is 4096 or more (R172). -/
  | memOutOfRange
  /-- Code 3, fatal: a call with sixteen entries in use (R173). -/
  | stackOverflow
  /-- Code 4, fatal: a return with none in use (R174). -/
  | stackUnderflow
  /-- Code 5, fatal: `PC >= 4095` at fetch (R175). -/
  | fetchOutOfRange
  deriving DecidableEq, Repr

/-- A report: the condition, the `PC` of the instruction, and the information word (R170). -/
structure Report where
  condition : Condition
  pc : Addr
  info : Nat
  deriving DecidableEq, Repr

/-- Everything the machine holds (10_state.md section 1), and three fields of the model's own: `report`, `keyIndex`, `randIndex`. -/
structure State where
  /-- `V[0]` to `V[15]` (R10); `V[15]` is `VF` (R11). -/
  v : Vector Byte 16
  /-- `I`, the index register (R12). -/
  i : Addr
  /-- `PC`, the address of the next instruction's first byte (R13). -/
  pc : Addr
  /-- `STACK[0]` to `STACK[15]`; the entries below `sp` are live (R14). -/
  stack : Vector Addr 16
  /-- `SP`, how many entries are in use, 0 to 16 (R14). -/
  sp : Fin 17
  /-- `DT`, the delay timer (R15). -/
  dt : Byte
  /-- `ST`, the sound timer (R15). -/
  st : Byte
  /-- `MEM`, in the canonical form of Machine/Memory.lean (R16). -/
  mem : List Host.Cell
  /-- `FB[y][x]`, rows top to bottom, columns left to right (R17). -/
  fb : Vector (Vector Bool 64) 32
  /-- `DIRTY` (R18). -/
  dirty : Bool
  /-- `HALTED` (R19). -/
  halted : Bool
  /-- `ERR`: bit `c - 1` is set once a condition of code `c` has been reported (R20). -/
  err : BitVec 5
  /-- The report output of the last step (R23, R170), `none` when nothing was raised. The model's own field (log entry 5). -/
  report : Option Report
  /-- How many key snapshots have been read: the place in the free input `Config.keys`. The model's own field (log entry 3). -/
  keyIndex : Nat
  /-- How many random bytes have been drawn: the place in the free input `Config.rand`. The model's own field (log entry 4). -/
  randIndex : Nat
  deriving DecidableEq, Repr

/-- Reasons the machine stops with a fault: NONE. Each of the five conditions of R170 has the effect its rule gives it, a next state
(`State.raise`); no step and no instruction ends in a fault. -/
inductive Fault where
  deriving DecidableEq, Repr

/-- Reasons there is no meaning. -/
inductive Refusal where
  /-- Raised by an arm of `exec` whose instruction has no meaning yet; no arm is left so. Safe: the machine stops. -/
  | notModelled (mnemonic : String)
  /-- Raised by the host transition `load` alone, never by a step: the program is longer than the 3584 bytes that fit (R201, D22).
  Safe: such a launch has no run. -/
  | programTooLong (length : Nat)
  /-- Raised by a list of host transitions alone (`fireAll`), never by a step: a `load` that is not the first after `reset`, or a `step`
  before it (R57, R201). Safe: the host makes no such run. -/
  | outOfOrder
  deriving DecidableEq, Repr

/-- The machine right after `reset` (R26, R200). Memory lists nothing: the glyph region then holds `GLYPH_ROM` and every other byte
`MEM_INIT`. The dead stack entries, `report`, `keyIndex` and `randIndex` are the model's choice (log entries 3, 4, 5, 7). -/
def State.reset : State where
  v := Vector.replicate 16 0x00#8
  i := 0x0000#16
  pc := 0x0200#16
  stack := Vector.replicate 16 0x0000#16
  sp := 0
  dt := 0x00#8
  st := 0x00#8
  mem := []
  fb := Vector.replicate 32 (Vector.replicate 64 false)
  dirty := true
  halted := false
  err := 0b00000#5
  report := none
  keyIndex := 0
  randIndex := 0

end Sys2Proof.Machine
end

