-- ==== Sys2Proof/Machine/Operands.lean ====
section
/-! DEFINITION. Operand forms (30_encoding.md R63): registers by a 4-bit field, unsigned immediates, the zero-extended address, and the
key that a register's value names. -/

namespace Sys2Proof.Machine

/-- `V[x]`: the register that a 4-bit field names (R10). -/
def State.getV (s : State) (x : Reg) : Byte := s.v[x.toNat]

/-- `V[x] <- b` (R10). -/
def State.setV (s : State) (x : Reg) (b : Byte) : State := { s with v := s.v.set x.toNat b }

/-- `zext_16(NNN)` (R63). -/
def zextAddr (nnn : Addr12) : Addr := nnn.setWidth 16

/-- `zext_16(V[x])` for a register's byte (R88, R121). -/
def zextByte (b : Byte) : Addr := b.setWidth 16

/-- `V[0]` to `V[x]`, the register block of `LD [I], Vx`: `x + 1` bytes, lowest register first (R124). -/
def State.regBlock (s : State) (x : Reg) : List Byte := s.v.toList.take (x.toNat + 1)

/-- Writes bytes to `V[k]`, `V[k + 1]`, ...: the register block of `LD Vx, [I]` (R125). -/
def setRegBlock (v : Vector Byte 16) (k : Nat) : List Byte → Vector Byte 16
  | [] => v
  | b :: bs => setRegBlock (v.setIfInBounds k b) (k + 1) bs

/-- The hundreds, tens and units digits of a byte, each in its own byte (R123). -/
def decimalDigits (b : Byte) : List Byte :=
  [BitVec.ofNat 8 (b.toNat / 100), BitVec.ofNat 8 (b.toNat / 10 % 10), BitVec.ofNat 8 (b.toNat % 10)]

/-- The key whose hex value is the whole byte `k` is down; no key has a value above 15 (R150, R151). -/
def keyDown (keys : Keys) (k : Byte) : Bool := decide (k.toNat ≤ 15) && keys.getLsbD k.toNat

/-- The least key that is down (R152); meant where some key is. -/
def leastKey (keys : Keys) : Nat := ((List.range 16).find? fun k => keys.getLsbD k).getD 0

end Sys2Proof.Machine
end

