-- ==== Sys2Proof/Machine/Ops.lean ====
section
/-! DEFINITION. The named operations the meanings share: the ways `PC` moves, the call stack, raising a condition, the inputs of a step,
and instruction fetch. -/

namespace Sys2Proof.Machine

/-- The outcome of a step or of an instruction's meaning. -/
abbrev Result := Host.Outcome State Fault Refusal

/-! ### The program counter (40_control_flow.md R80) -/

/-- The default advance, `PC <- (PC + 2) mod 65536` (R80). -/
def State.advance (s : State) : State := { s with pc := s.pc + 2#16 }

/-- A skip: `PC + 4` when the condition holds, else the default advance; both mod 65536 (R80). -/
def State.skipIf (s : State) (c : Bool) : State := { s with pc := s.pc + if c then 4#16 else 2#16 }

/-- `PC <- target`. -/
def State.jump (s : State) (target : Addr) : State := { s with pc := target }

/-! ### The call stack (R14) -/

/-- `STACK[SP] <- a; SP <- SP + 1`; `none` when all sixteen entries are in use (R83). -/
def State.push (s : State) (a : Addr) : Option State :=
  if h : s.sp.val < 16 then
    some { s with stack := s.stack.set s.sp.val a, sp := ⟨s.sp.val + 1, by omega⟩ }
  else none

/-- `SP <- SP - 1` and `STACK[SP]`; `none` when no entry is in use (R81). -/
def State.pop (s : State) : Option (Addr × State) :=
  if h : 0 < s.sp.val then
    some (s.stack[s.sp.val - 1], { s with sp := ⟨s.sp.val - 1, by omega⟩ })
  else none

/-! ### Conditions (60_exceptions.md R170 to R178) -/

/-- The code of a condition, 1 to 5 (R170). -/
def Condition.code : Condition → Nat
  | .unimplementedInstruction => 1
  | .memOutOfRange => 2
  | .stackOverflow => 3
  | .stackUnderflow => 4
  | .fetchOutOfRange => 5

/-- The condition halts the core (R170, R177). -/
def Condition.fatal : Condition → Bool
  | .unimplementedInstruction | .memOutOfRange => false
  | .stackOverflow | .stackUnderflow | .fetchOutOfRange => true

/-- The bit of `ERR` that a condition sets: bit `code - 1` (R20). -/
def Condition.errBit (c : Condition) : BitVec 5 := BitVec.ofNat 5 (2 ^ (c.code - 1))

/-- `raise c(info)`: the one entry action of a condition (R171 to R175, R177). It reports, sets the condition's `ERR` bit, and then either
moves `PC` on by 2 (recoverable) or sets `HALTED` with `PC` left at the instruction (fatal); nothing is saved and nothing else changes.
There is no return from a condition: only `reset` clears `HALTED` and `ERR` (R178). -/
def State.raise (s : State) (c : Condition) (info : Nat) : State :=
  let s' := { s with report := some ⟨c, s.pc, info⟩, err := s.err ||| c.errBit }
  if c.fatal then { s' with halted := true } else s'.advance

/-- A data access that starts at `I` and leaves memory: the whole instruction is rejected, reporting the lowest address out of range,
`max(I, 4096)` (R50, R172). -/
def State.rejectAccess (s : State) : State := s.raise .memOutOfRange (max s.i.toNat Config.memSize)

/-! ### The inputs of a step (R21, R22) -/

/-- `KEYS`, the snapshot this instruction sees: a free value (log entry 3). -/
def State.keys (s : State) : Keys := Config.keys s.keyIndex

/-- The snapshot has been read: the next one read is another free value. -/
def State.keysRead (s : State) : State := { s with keyIndex := s.keyIndex + 1 }

/-- `RAND`, the byte this instruction draws: a free value (log entry 4). -/
def State.rand (s : State) : Byte := Config.rand s.randIndex

/-- The byte has been drawn: the next one drawn is another free value (R22: one byte for each `RND`, none for any other instruction). -/
def State.randDrawn (s : State) : State := { s with randIndex := s.randIndex + 1 }

/-! ### Fetch (R43, R51) -/

/-- The opcode word at `PC`: two byte reads, big-endian; `none` when `PC` or `PC + 1`, as naturals, is out of range. -/
def State.fetch (s : State) : Option Opcode :=
  match Memory.readByte s.mem s.pc.toNat, Memory.readByte s.mem (s.pc.toNat + 1) with
  | some hi, some lo => some (assembleWord hi lo)
  | _, _ => none

/-- The report output at the start of a step: nothing raised yet (R64: `none` unless a condition is raised). -/
def State.clearReport (s : State) : State := { s with report := none }

/-- Memory with the two bytes of an opcode word at `PC` and `PC + 1`, as the fetch reads them; as it was where they do not fit. -/
def State.placeWord (s : State) (hi lo : Byte) : List Host.Cell :=
  (Memory.writeBlock s.mem s.pc.toNat [hi, lo]).getD s.mem

end Sys2Proof.Machine
end

