-- ==== Sys2Proof/Machine/Alu.lean ====
section
/-! DEFINITION. Load and add immediate, and the register-to-register class 0x8 (41_immediate_and_alu.md R100 to R111). -/

namespace Sys2Proof.Machine

/-- `V[x] <- b`, then the default advance. -/
def State.result (s : State) (x : Reg) (b : Byte) : State := (s.setV x b).advance

/-- `V[x] <- b`, then `VF <- flag`, then the default advance: with `x = 0xF` the flag is what remains (R100). Both values have been
computed from the registers as they were before the instruction. -/
def State.resultFlag (s : State) (x : Reg) (b flag : Byte) : State := ((s.setV x b).setV regF flag).advance

/-- `LD Vx, NN` (R101). -/
def execLdImm (x : Reg) (nn : Byte) (s : State) : Result := .next (s.result x nn)

/-- `ADD Vx, NN` (R102): mod 256, no flag. -/
def execAddImm (x : Reg) (nn : Byte) (s : State) : Result := .next (s.result x (s.getV x + nn))

/-- `LD Vx, Vy` (R103). -/
def execLdReg (x y : Reg) (s : State) : Result := .next (s.result x (s.getV y))

/-- `OR Vx, Vy` (R104): no flag. -/
def execOrReg (x y : Reg) (s : State) : Result := .next (s.result x (s.getV x ||| s.getV y))

/-- `AND Vx, Vy` (R105): no flag. -/
def execAndReg (x y : Reg) (s : State) : Result := .next (s.result x (s.getV x &&& s.getV y))

/-- `XOR Vx, Vy` (R106): no flag. -/
def execXorReg (x y : Reg) (s : State) : Result := .next (s.result x (s.getV x ^^^ s.getV y))

/-- `ADD Vx, Vy` (R107). -/
def execAddReg (x y : Reg) (s : State) : Result :=
  .next (s.resultFlag x (s.getV x + s.getV y) (carryFlag (s.getV x) (s.getV y)))

/-- `SUB Vx, Vy` (R108): `V[x] - V[y]`. -/
def execSubReg (x y : Reg) (s : State) : Result :=
  .next (s.resultFlag x (s.getV x - s.getV y) (notBorrowFlag (s.getV x) (s.getV y)))

/-- `SHR Vx, Vy` (R109): `V[y]` shifted right by one into `V[x]`. -/
def execShrReg (x y : Reg) (s : State) : Result :=
  .next (s.resultFlag x (s.getV y >>> 1) (shiftRightFlag (s.getV y)))

/-- `SUBN Vx, Vy` (R110): `V[y] - V[x]`. -/
def execSubnReg (x y : Reg) (s : State) : Result :=
  .next (s.resultFlag x (s.getV y - s.getV x) (notBorrowFlag (s.getV y) (s.getV x)))

/-- `SHL Vx, Vy` (R111): `V[y]` shifted left by one into `V[x]`. -/
def execShlReg (x y : Reg) (s : State) : Result :=
  .next (s.resultFlag x (s.getV y <<< 1) (shiftLeftFlag (s.getV y)))

end Sys2Proof.Machine
end

