-- ==== Sys2Proof/Machine/ControlFlow.lean ====
section
/-! DEFINITION. Control transfer: `RET`, `JP`, `CALL`, the register and immediate skips, `JP V0` (40_control_flow.md R80 to R88). -/

namespace Sys2Proof.Machine

/-- `RET` (R81): the popped entry goes to `PC` as it stands; with nothing to pop, `StackUnderflow` (R174). -/
def execRet (s : State) : Result :=
  match s.pop with
  | some (target, s') => .next (s'.jump target)
  | none => .next (s.raise .stackUnderflow 0)

/-- `JP NNN` (R82). -/
def execJp (nnn : Addr12) (s : State) : Result := .next (s.jump (zextAddr nnn))

/-- `CALL NNN` (R83): pushes `PC + 2`, then jumps; with the stack full, `StackOverflow` (R173). -/
def execCall (nnn : Addr12) (s : State) : Result :=
  match s.push (s.pc + 2#16) with
  | some s' => .next (s'.jump (zextAddr nnn))
  | none => .next (s.raise .stackOverflow 0)

/-- `SE Vx, NN` (R84). -/
def execSeImm (x : Reg) (nn : Byte) (s : State) : Result := .next (s.skipIf (s.getV x == nn))

/-- `SNE Vx, NN` (R85). -/
def execSneImm (x : Reg) (nn : Byte) (s : State) : Result := .next (s.skipIf (s.getV x != nn))

/-- `SE Vx, Vy` (R86). -/
def execSeReg (x y : Reg) (s : State) : Result := .next (s.skipIf (s.getV x == s.getV y))

/-- `SNE Vx, Vy` (R87). -/
def execSneReg (x y : Reg) (s : State) : Result := .next (s.skipIf (s.getV x != s.getV y))

/-- `JP V0, NNN` (R88): the 16-bit sum, not masked to 12 bits; always `V[0]`. -/
def execJpV0 (nnn : Addr12) (s : State) : Result := .next (s.jump (zextAddr nnn + zextByte (s.getV 0x0#4)))

end Sys2Proof.Machine
end

