-- ==== Sys2Proof/Machine/Screen.lean ====
section
/-! DEFINITION. The Display component: pixels with wrapped coordinates, `clear` and `drawSprite` (10_state.md R17, 43_display.md R141). -/

namespace Sys2Proof.Machine

/-- The framebuffer's type: 32 rows of 64 pixels, `FB[y][x]` (R17). -/
abbrev Grid := Vector (Vector Bool 64) 32

/-- `getPixel(x, y) = FB[y mod 32][x mod 64]` (R17). -/
def getPixel (fb : Grid) (x y : Nat) : Bool :=
  (fb[y % 32]'(Nat.mod_lt y (by decide)))[x % 64]'(Nat.mod_lt x (by decide))

/-- `setPixel(x, y, v)` writes the cell that `getPixel(x, y)` reads (R17). -/
def setPixel (fb : Grid) (x y : Nat) (v : Bool) : Grid :=
  fb.set (y % 32) ((fb[y % 32]'(Nat.mod_lt y (by decide))).set (x % 64) v (Nat.mod_lt x (by decide))) (Nat.mod_lt y (by decide))

/-- `clear()`: all pixels unset (R140). -/
def clearGrid : Grid := Vector.replicate 32 (Vector.replicate 64 false)

/-- One pixel of a draw: XORs `bit` into the pixel at `(x, y)`, and notes a collision when the pixel goes from set to unset (R141). -/
def plot (acc : Grid × Bool) (x y : Nat) (bit : Bool) : Grid × Bool :=
  let old := getPixel acc.1 x y
  let new := old ^^ bit
  (setPixel acc.1 x y new, acc.2 || (old && !new))

/-- One row of a sprite at `(x0, y)`: bits `c` = 0 to 7, the most significant bit leftmost (R141). -/
def drawRow (acc : Grid × Bool) (x0 y : Nat) (b : Byte) : Grid × Bool :=
  (List.range 8).foldl (fun acc c => plot acc (x0 + c) y (b.getLsbD (7 - c))) acc

/-- The rows of a sprite from `(x0, y)` down; the collision so far is carried along (R141). -/
def drawRows (acc : Grid × Bool) (x0 y : Nat) : List Byte → Grid × Bool
  | [] => acc
  | b :: bs => drawRows (drawRow acc x0 y b) x0 (y + 1) bs

/-- `drawSprite`: the new grid, and whether any pixel went from set to unset (R141). -/
def drawSprite (fb : Grid) (x0 y0 : Nat) (rows : List Byte) : Grid × Bool := drawRows (fb, false) x0 y0 rows

end Sys2Proof.Machine
end

