-- ==== Sys2Proof/Machine/Display.lean ====
section
/-! DEFINITION. `CLS` and `DRW` (43_display.md R140, R141). -/

namespace Sys2Proof.Machine

/-- `CLS` (R140): `DIRTY` is set even if the screen was clear. -/
def execCls (s : State) : Result := .next { s with fb := clearGrid, dirty := true }.advance

/-- The state after a sprite of these rows is drawn at `(x0, y0)`: `FB`, then `VF <- collision`, then `DIRTY`, then the advance (R141). -/
def State.draw (s : State) (x0 y0 : Byte) (rows : List Byte) : State :=
  let drawn := drawSprite s.fb x0.toNat y0.toNat rows
  ({ s with fb := drawn.1, dirty := true }.setV regF (flagByte drawn.2)).advance

/-- `DRW Vx, Vy, N` (R141): when a row is out of range nothing is drawn and `MemOutOfRange` is raised; `N = 0` reads no byte. -/
def execDrw (x y : Reg) (n : Nibble) (s : State) : Result :=
  match Memory.readBlock s.mem s.i.toNat n.toNat with
  | some rows => .next (s.draw (s.getV x) (s.getV y) rows)
  | none => .next s.rejectAccess

end Sys2Proof.Machine
end

