-- ==== Sys2Proof/Machine/IndexMemory.lean ====
section
/-! DEFINITION. The index register and the memory instructions (42_index_and_memory.md R120 to R125). No access changes `I`. -/

namespace Sys2Proof.Machine

/-- `I <- a`, then the default advance. -/
def State.setIndex (s : State) (a : Addr) : State := { s with i := a }.advance

/-- Stores bytes at `I`, `I + 1`, ... and advances; when one of them is out of range no byte is stored and `MemOutOfRange` is raised
(R50, R123, R124). -/
def State.storeAtIndex (s : State) (bytes : List Byte) : State :=
  match Memory.writeBlock s.mem s.i.toNat bytes with
  | some m => { s with mem := m }.advance
  | none => s.rejectAccess

/-- `LD I, NNN` (R120). -/
def execLdI (nnn : Addr12) (s : State) : Result := .next (s.setIndex (zextAddr nnn))

/-- `ADD I, Vx` (R121): mod 65536, no flag. -/
def execAddI (x : Reg) (s : State) : Result := .next (s.setIndex (s.i + zextByte (s.getV x)))

/-- `LD F, Vx` (R122): the glyph of the low nibble of `V[x]`. -/
def execGlyph (x : Reg) (s : State) : Result := .next (s.setIndex (glyphAddress ((s.getV x).extractLsb' 0 4)))

/-- `LD B, Vx` (R123). -/
def execBcd (x : Reg) (s : State) : Result := .next (s.storeAtIndex (decimalDigits (s.getV x)))

/-- `LD [I], Vx` (R124). -/
def execStoreRegs (x : Reg) (s : State) : Result := .next (s.storeAtIndex (s.regBlock x))

/-- `LD Vx, [I]` (R125): when one byte is out of range no register is changed and `MemOutOfRange` is raised. -/
def execLoadRegs (x : Reg) (s : State) : Result :=
  match Memory.readBlock s.mem s.i.toNat (x.toNat + 1) with
  | some bytes => .next { s with v := setRegBlock s.v 0 bytes }.advance
  | none => .next s.rejectAccess

end Sys2Proof.Machine
end

