-- ==== Sys2Proof/Machine/KeysTimersRandom.lean ====
section
/-! DEFINITION. The key, timer and random instructions (44_keys_timers_random.md R150 to R156). -/

namespace Sys2Proof.Machine

/-- `SKP` under the snapshot `keys`: skip when the key that `V[x]` names is down (R150). -/
def State.skipIfDown (s : State) (keys : Keys) (x : Reg) : State := s.skipIf (keyDown keys (s.getV x))

/-- `SKNP` under the snapshot `keys`: skip when it is not down (R151). -/
def State.skipIfUp (s : State) (keys : Keys) (x : Reg) : State := s.skipIf (!keyDown keys (s.getV x))

/-- `LD Vx, K` under the snapshot `keys`: with no key down nothing changes, and the instruction is fetched again; else `V[x]` gets the
least key down (R152). -/
def State.takeKey (s : State) (keys : Keys) (x : Reg) : State :=
  if keys = 0#16 then s else (s.setV x (BitVec.ofNat 8 (leastKey keys))).advance

/-- `RND` with the drawn byte `r` (R156). -/
def State.takeRandom (s : State) (r : Byte) (x : Reg) (nn : Byte) : State := (s.setV x (r &&& nn)).advance

/-- `SKP Vx` (R150). -/
def execSkp (x : Reg) (s : State) : Result := .next (s.keysRead.skipIfDown s.keys x)

/-- `SKNP Vx` (R151). -/
def execSknp (x : Reg) (s : State) : Result := .next (s.keysRead.skipIfUp s.keys x)

/-- `LD Vx, K` (R152). -/
def execWaitKey (x : Reg) (s : State) : Result := .next (s.keysRead.takeKey s.keys x)

/-- `LD Vx, DT` (R153). -/
def execGetDt (x : Reg) (s : State) : Result := .next (s.setV x s.dt).advance

/-- `LD DT, Vx` (R154). -/
def execSetDt (x : Reg) (s : State) : Result := .next { s with dt := s.getV x }.advance

/-- `LD ST, Vx` (R155). -/
def execSetSt (x : Reg) (s : State) : Result := .next { s with st := s.getV x }.advance

/-- `RND Vx, NN` (R156). -/
def execRnd (x : Reg) (nn : Byte) (s : State) : Result := .next (s.randDrawn.takeRandom s.rand x nn)

end Sys2Proof.Machine
end

