-- ==== Sys2Proof/Machine/Unimplemented.lean ====
section
/-! DEFINITION. `UNIMPL`, the default row of the opcode map (30_encoding.md R67, 60_exceptions.md R171). -/

namespace Sys2Proof.Machine

/-- `UNIMPL` (R171): a reported no-op with the default advance. -/
def execUnimpl (op : Opcode) (s : State) : Result := .next (s.raise .unimplementedInstruction op.toNat)

end Sys2Proof.Machine
end

