-- ==== Sys2Proof/Machine/Cycle.lean ====
section
/-! DEFINITION. The step cycle: what one `step` does, in the order of its checks (30_encoding.md R64, 60_exceptions.md R176). -/

namespace Sys2Proof.Machine

/-- One `step`: a halted core does nothing; then fetch, which can raise `FetchOutOfRange` (R51, R175); then decode and execute. The report
output is `none` unless a condition is raised. Timers are not touched (R64). -/
def State.cycle (s : State) : Result :=
  let s := s.clearReport
  if s.halted then .next s
  else
    match s.fetch with
    | none => .next (s.raise .fetchOutOfRange s.pc.toNat)
    | some op => exec (decode op) s

/-- The state with an opcode word stored where the next fetch reads it, and the core not halted, so that the next step fetches it. -/
def State.withWord (s : State) (op : Opcode) : State :=
  { s with mem := s.placeWord (op.extractLsb' 8 8) (op.extractLsb' 0 8), halted := false }

end Sys2Proof.Machine
end

