-- ==== Sys2Proof/Machine/Step.lean ====
section
/-! DEFINITION. `step`, the machine's step transition, and the host's way to place one instruction before it. -/

namespace Sys2Proof.Machine

/-- The `step` transition of R4 and R64, and nothing else: the host's other transitions are in Machine/HostPort.lean. -/
def step (s : State) : Host.Outcome State Fault Refusal := s.cycle

/-- `s` with the table's word `w` of `nbits` bits stored big-endian at `PC` and `PC + 1`, and not halted, so that the next step fetches
and runs exactly it (log entry 8). -/
def State.withFetchWord (s : State) (nbits w : Nat) : State := s.withWord (tableWord nbits w)

end Sys2Proof.Machine
end

