-- ==== Sys2Proof/Machine/HostPort.lean ====
section
/-! DEFINITION. The host's side of CORE: the transitions `reset`, `load`, `tick`, `present` beside `step`, and the outputs
(00_scope.md R4, 10_state.md R23, R24), and the order the host keeps (20_memory.md R57). Machine.step is the `step` transition alone; a run
of the machine is a list of transitions in the order of R57, with ticks and presents wherever the host likes, and a statement about runs
ranges over such lists. -/

namespace Sys2Proof.Machine

/-- A timer one tick later: decremented, and clamped at 0 (R15, R181). -/
def tickTimer (t : Byte) : Byte := if t.toNat > 0 then t - 1#8 else t

/-- `tick` (R181): both timers count down by one; it works whether or not the core is halted (R182). -/
def State.tick (s : State) : State := { s with dt := tickTimer s.dt, st := tickTimer s.st }

/-- The grid that `present` hands the host (R185). -/
def State.view (s : State) : Grid := s.fb

/-- `present` (R185): the host has the grid, and `DIRTY` is cleared. -/
def State.present (s : State) : State := { s with dirty := false }

/-- `SOUND_ON = (ST != 0)`, the level the tone generator follows (R23, R183). -/
def State.soundOn (s : State) : Bool := s.st != 0#8

/-- `reset` (R200): every piece of the core's state at its reset value, nothing preserved. The inputs come from outside the core (R21, R22),
and what they are after a second construction is left open (R186: no seed, no seeding): DESIGN CHOICE, safe, the counters of the two free
inputs go on, so that a later construction reads further free values and repeats no earlier input (log entries 3 and 4). -/
def State.construct (s : State) : State := { State.reset with keyIndex := s.keyIndex, randIndex := s.randIndex }

/-- `load(bytes)` (R201): the program's bytes verbatim from 0x200; a program of more than 3584 bytes does not fit and is
refused. When the host may fire it is `Phase.after`. -/
def State.load (s : State) (bytes : List Byte) : Result :=
  match Memory.writeBlock s.mem Config.progBase bytes with
  | some m => .next { s with mem := m }
  | none => .refused (.programTooLong bytes.length)

/-- The five transitions (R4). -/
inductive Transition where
  /-- The construction of the machine (R200); nothing of the old core survives. -/
  | reset
  /-- The copy of the program file into memory (R201). -/
  | load (bytes : List Byte)
  /-- One instruction (R64). -/
  | step
  /-- One tick of the timers (R181). -/
  | tick
  /-- One presentation of the grid (R185). -/
  | present
  deriving DecidableEq, Repr

/-- What a transition does to the core. Each is atomic (R4). -/
def fire (t : Transition) (s : State) : Result :=
  match t with
  | .reset => .next s.construct
  | .load bytes => s.load bytes
  | .step => step s
  | .tick => .next s.tick
  | .present => .next s.present

/-! ### The order of the host's transitions (R4, R57, R201) -/

/-- How far the host is with the machine it has constructed. It is no state of the core: the host keeps it. -/
inductive Phase where
  /-- Constructed; the program has not been loaded, and no step has been taken. -/
  | constructed
  /-- The program has been loaded: steps may be taken, and nothing is loaded again. -/
  | loaded
  deriving DecidableEq, Repr

/-- The phase after a transition, `none` where the host may not fire it: `load` comes once, after `reset` and before the first `step`
(R57, R201), and steps come after it. Ticks and presents may come at any time. That a step waits for a `load` is read from "After `load` the
host begins firing `step`" (R201): DEDUCED (log entry 11). -/
def Phase.after : Phase → Transition → Option Phase
  | _, .reset => some .constructed
  | .constructed, .load _ => some .loaded
  | .loaded, .load _ => none
  | .constructed, .step => none
  | .loaded, .step => some .loaded
  | p, .tick => some p
  | p, .present => some p

/-- A list of transitions, in order, from a phase of the host; it stops at the first refusal, and a transition out of the order of R57 is
refused. -/
def fireAll : Phase → List Transition → State → Result
  | _, [], s => .next s
  | p, t :: ts, s =>
    match p.after t with
    | none => .refused .outOfOrder
    | some p' =>
      match fire t s with
      | .next s' => fireAll p' ts s'
      | .fault r => .fault r
      | .refused r => .refused r

/-- A launch as the host makes it: `reset`, `load`, then steps, ticks and presents as the list has them (R4, R201). -/
def launch (program : List Byte) (ts : List Transition) : Result := fireAll .constructed (.load program :: ts) State.reset

end Sys2Proof.Machine
end

