-- ==== Sys2Proof/Safety.lean ====
section
/-! DEFINITION. The terms that claims use: what a transition leaves unchanged, the machine's invariant, a run with no report, what the
instructions write by their syntax, and the picture of a sprite. -/

namespace Sys2Proof.Machine

/-! ### Frames: what is the same in `t` as in `s` -/

/-- Every general register reads as before. -/
def KeepsRegs (s t : State) : Prop := ∀ x : Reg, t.getV x = s.getV x

/-- Every byte of memory reads as before. -/
def KeepsMemory (s t : State) : Prop := ∀ a : Nat, Memory.byteAt t.mem a = Memory.byteAt s.mem a

/-- Every pixel and `DIRTY` are as before. -/
def KeepsScreen (s t : State) : Prop := (∀ x y : Nat, getPixel t.fb x y = getPixel s.fb x y) ∧ t.dirty = s.dirty

/-- `SP` and all sixteen entries are as before. -/
def KeepsStack (s t : State) : Prop := t.sp = s.sp ∧ ∀ (k : Nat) (h : k < 16), t.stack[k] = s.stack[k]

/-- Both timers are as before. -/
def KeepsTimers (s t : State) : Prop := t.dt = s.dt ∧ t.st = s.st

/-- `HALTED`, `ERR` and the report output are as before: no condition is raised. -/
def KeepsStatus (s t : State) : Prop := t.halted = s.halted ∧ t.err = s.err ∧ t.report = s.report

/-- No key snapshot has been read and no random byte drawn. -/
def KeepsInputs (s t : State) : Prop := t.keyIndex = s.keyIndex ∧ t.randIndex = s.randIndex

/-- Everything but the general registers, `I` and `PC` is as before. -/
def KeepsRest (s t : State) : Prop :=
  KeepsMemory s t ∧ KeepsScreen s t ∧ KeepsStack s t ∧ KeepsTimers s t ∧ KeepsStatus s t ∧ KeepsInputs s t

/-- `PC` has moved on by `n`, mod 65536 (R13, R80). -/
def PcAdvances (s t : State) (n : Nat) : Prop := t.pc.toNat = (s.pc.toNat + n) % 65536

/-- Exactly the condition of this code has been raised in going from `s` to `t`: the report names it, the `PC` of the instruction and the
information word, bit `code - 1` of `ERR` is set, and every other bit is as it was (R20, R170). -/
def Reports (s t : State) (c : Condition) (info : Nat) : Prop :=
  t.report = some ⟨c, s.pc, info⟩ ∧ ∀ k : Nat, t.err.getLsbD k = (s.err.getLsbD k || decide (k + 1 = c.code))

/-! ### Runs -/

/-- No report is recorded: the premise a claim about a program takes (R20, R206). -/
def State.noReport (s : State) : Prop := s.err = 0b00000#5

/-- A list of ticks and presents alone: what the host may fire at any time (R4, R182). -/
def OnlyTicksAndPresents (ts : List Transition) : Prop := ∀ tr ∈ ts, tr = .tick ∨ tr = .present

/-- What holds of every state the machine can be in: memory is canonical (the model's own representation, log entry 1); `HALTED` is set
exactly when one of the three fatal conditions is recorded in `ERR`; `PC` is at most 0xFFF + 0xFF, and no entry in use is above 0x1000, the return address of a call at 0xFFE (R13). -/
def State.Inv (s : State) : Prop :=
  Memory.wf s.mem = true ∧
  (s.halted = true ↔ s.err.getLsbD 2 = true ∨ s.err.getLsbD 3 = true ∨ s.err.getLsbD 4 = true) ∧
  s.pc.toNat ≤ 0x10FE ∧
  ∀ (k : Nat) (h : k < 16), k < s.sp.val → s.stack[k].toNat ≤ 0x1000

/-! ### What an instruction writes, by its syntax -/

end Sys2Proof.Machine

namespace Sys2Proof

/-- The six instructions that write `VF` as a side effect (R11). -/
def Instr.writesFlag : Instr → Bool
  | .addReg _ _ | .subReg _ _ | .shrReg _ _ | .subnReg _ _ | .shlReg _ _ | .drw _ _ _ => true
  | .cls | .ret | .jp _ | .call _ | .seImm _ _ | .sneImm _ _ | .seReg _ _ | .ldImm _ _ | .addImm _ _ | .ldReg _ _
  | .orReg _ _ | .andReg _ _ | .xorReg _ _ | .sneReg _ _ | .ldI _ | .jpV0 _ | .rnd _ _ | .skp _ | .sknp _ | .getDt _
  | .waitKey _ | .setDt _ | .setSt _ | .addI _ | .glyph _ | .bcd _ | .storeRegs _ | .loadRegs _ | .unimpl _ => false

/-- The instruction names register `x` as a destination: its `X` field, or the block `V[0]` to `V[X]` of `LD Vx, [I]` (R10, R125). -/
def Instr.writesReg (x : Reg) : Instr → Bool
  | .ldImm y _ | .addImm y _ | .rnd y _ | .getDt y | .waitKey y => y == x
  | .ldReg y _ | .orReg y _ | .andReg y _ | .xorReg y _ | .addReg y _ | .subReg y _ | .shrReg y _ | .subnReg y _ | .shlReg y _ => y == x
  | .loadRegs y => decide (x.toNat ≤ y.toNat)
  | .cls | .ret | .jp _ | .call _ | .seImm _ _ | .sneImm _ _ | .seReg _ _ | .sneReg _ _ | .ldI _ | .jpV0 _ | .drw _ _ _
  | .skp _ | .sknp _ | .setDt _ | .setSt _ | .addI _ | .glyph _ | .bcd _ | .storeRegs _ | .unimpl _ => false

/-- The instruction may leave `PC` elsewhere than at `PC + 2`: the transfers and the wait for a key (R80). -/
def Instr.movesPc : Instr → Bool
  | .ret | .jp _ | .call _ | .jpV0 _ | .waitKey _ => true
  | .seImm _ _ | .sneImm _ _ | .seReg _ _ | .sneReg _ _ | .skp _ | .sknp _ => true
  | .cls | .ldImm _ _ | .addImm _ _ | .ldReg _ _ | .orReg _ _ | .andReg _ _ | .xorReg _ _ | .addReg _ _ | .subReg _ _
  | .shrReg _ _ | .subnReg _ _ | .shlReg _ _ | .ldI _ | .rnd _ _ | .drw _ _ _ | .getDt _ | .setDt _ | .setSt _ | .addI _
  | .glyph _ | .bcd _ | .storeRegs _ | .loadRegs _ | .unimpl _ => false

/-- The instruction is a conditional skip (R84 to R87, R150, R151). -/
def Instr.skips : Instr → Bool
  | .seImm _ _ | .sneImm _ _ | .seReg _ _ | .sneReg _ _ | .skp _ | .sknp _ => true
  | .cls | .ret | .jp _ | .call _ | .ldImm _ _ | .addImm _ _ | .ldReg _ _ | .orReg _ _ | .andReg _ _ | .xorReg _ _
  | .addReg _ _ | .subReg _ _ | .shrReg _ _ | .subnReg _ _ | .shlReg _ _ | .ldI _ | .jpV0 _ | .rnd _ _ | .drw _ _ _
  | .getDt _ | .waitKey _ | .setDt _ | .setSt _ | .addI _ | .glyph _ | .bcd _ | .storeRegs _ | .loadRegs _ | .unimpl _ => false

end Sys2Proof

namespace Sys2Proof.Machine

/-! ### The picture of a sprite (R141) -/

/-- The bit that a sprite of rows `MEM[a]` to `MEM[a + n - 1]` drawn at `(x0, y0)` puts on the pixel `(px, py)`: the pixel's row and column
in the sprite are its distances down and right from the corner, around the grid; outside the sprite the bit is 0 (R141). -/
def spriteBit (byte : Nat → Byte) (n x0 y0 px py : Nat) : Bool :=
  let r := (py + (32 - y0 % 32)) % 32
  let c := (px + (64 - x0 % 64)) % 64
  decide (r < n) && decide (c < 8) && (byte r).getLsbD (7 - c)

end Sys2Proof.Machine
end

