-- ==== Sys2Proof/Certificates/Slice0/Obligations.lean ====
section
/-! DEFINITION. The statements about the model, from the numbered rules of spec/. Nothing is proved here.

A statement about an instruction says: which words decode to it (the pattern of 30_encoding.md R66, every operand value, ignored bits
included), that `exec` answers a next state for every state that meets the hypotheses, what that state holds, and its frame. Where a
clause rests on a decision the spec marks as its own (D<n> of 92_eei_decisions.md), or on what it marks general knowledge, the docstring
says so, and the statement's basis is 'derived'. In every statement with `PcAdvances`, that `PC` wraps at 65536 is decision D16 (R13, R80); it
matters only where no step can execute. -/

open Sys2Proof Sys2Proof.Machine

/-! ### Control flow (40_control_flow.md) -/

/-- R82: every word 0x1NNN is `JP NNN`; `PC` becomes `NNN`, whatever it is, and nothing else changes. -/
def Obligations.JumpSetsPc : Prop :=
  ∀ nnn : Addr12, decode (0x1#4 ++ nnn) = .jp nnn ∧
    ∀ s : State, ∃ t, exec (.jp nnn) s = .next t ∧
      t.pc.toNat = nnn.toNat ∧ KeepsRegs s t ∧ t.i = s.i ∧ KeepsRest s t

/-- R84: every word 0x3XNN is `SE Vx, NN`; `PC` moves by 4 if `V[X] = NN`, else by 2; nothing else changes. -/
def Obligations.SkipIfEqualImmediate : Prop :=
  ∀ (x : Reg) (nn : Byte), decode (0x3#4 ++ x ++ nn) = .seImm x nn ∧
    ∀ s : State, ∃ t, exec (.seImm x nn) s = .next t ∧
      PcAdvances s t (if (s.getV x).toNat = nn.toNat then 4 else 2) ∧ KeepsRegs s t ∧ t.i = s.i ∧ KeepsRest s t

/-- R85: every word 0x4XNN is `SNE Vx, NN`; `PC` moves by 4 if `V[X] ≠ NN`, else by 2; nothing else changes. -/
def Obligations.SkipIfNotEqualImmediate : Prop :=
  ∀ (x : Reg) (nn : Byte), decode (0x4#4 ++ x ++ nn) = .sneImm x nn ∧
    ∀ s : State, ∃ t, exec (.sneImm x nn) s = .next t ∧
      PcAdvances s t (if (s.getV x).toNat ≠ nn.toNat then 4 else 2) ∧ KeepsRegs s t ∧ t.i = s.i ∧ KeepsRest s t

/-- R86 and R87: every word 0x5XYN is `SE Vx, Vy` and every word 0x9XYN is `SNE Vx, Vy`; `PC` moves by 4 if the registers are equal
(differ), else by 2; nothing else changes. That `N` is ignored is the spec's decision D8; that 9XY0 is an instruction of this machine is
its decision D1. -/
def Obligations.SkipOnTwoRegisters : Prop :=
  ∀ (x y : Reg) (n : Nibble),
    decode (0x5#4 ++ x ++ y ++ n) = .seReg x y ∧ decode (0x9#4 ++ x ++ y ++ n) = .sneReg x y ∧
    ∀ s : State,
      (∃ t, exec (.seReg x y) s = .next t ∧
        PcAdvances s t (if s.getV x = s.getV y then 4 else 2) ∧ KeepsRegs s t ∧ t.i = s.i ∧ KeepsRest s t) ∧
      (∃ t, exec (.sneReg x y) s = .next t ∧
        PcAdvances s t (if s.getV x = s.getV y then 2 else 4) ∧ KeepsRegs s t ∧ t.i = s.i ∧ KeepsRest s t)

/-- R88: every word 0xBNNN is `JP V0, NNN`; `PC` becomes the whole sum `NNN + V[0]`, not masked to 12 bits; nothing else changes. The
instruction is the spec's decision D1, the width of the sum its decision D15. -/
def Obligations.IndexedJumpAddsV0 : Prop :=
  ∀ nnn : Addr12, decode (0xB#4 ++ nnn) = .jpV0 nnn ∧
    ∀ s : State, ∃ t, exec (.jpV0 nnn) s = .next t ∧
      t.pc.toNat = nnn.toNat + (s.getV 0x0#4).toNat ∧ KeepsRegs s t ∧ t.i = s.i ∧ KeepsRest s t

/-- R83: every word 0x2NNN is `CALL NNN`; with fewer than sixteen entries in use, `PC + 2` is pushed, `PC` becomes `NNN`, every other entry
and everything else is as before. The depth 16 is the spec's decision D3. -/
def Obligations.CallPushesReturnAddress : Prop :=
  ∀ nnn : Addr12, decode (0x2#4 ++ nnn) = .call nnn ∧
    ∀ s : State, s.sp.val < 16 → ∃ t, exec (.call nnn) s = .next t ∧
      t.pc.toNat = nnn.toNat ∧ t.sp.val = s.sp.val + 1 ∧
      (∀ (k : Nat) (h : k < 16), if k = s.sp.val then t.stack[k].toNat = (s.pc.toNat + 2) % 65536 else t.stack[k] = s.stack[k]) ∧
      KeepsRegs s t ∧ t.i = s.i ∧ KeepsMemory s t ∧ KeepsScreen s t ∧ KeepsTimers s t ∧ KeepsStatus s t ∧ KeepsInputs s t

/-- R83, R173: with sixteen entries in use a `CALL` reports StackOverflow at its own `PC` and halts; nothing else changes (decisions D3, D4,
D7). -/
def Obligations.CallOnFullStackHalts : Prop :=
  ∀ (nnn : Addr12) (s : State), s.sp.val = 16 → ∃ t, exec (.call nnn) s = .next t ∧
    Reports s t .stackOverflow 0 ∧ t.halted = true ∧ t.pc = s.pc ∧ KeepsStack s t ∧
    KeepsRegs s t ∧ t.i = s.i ∧ KeepsMemory s t ∧ KeepsScreen s t ∧ KeepsTimers s t ∧ KeepsInputs s t

/-- R81: every word 0x0XEE is `RET`; with an entry in use, `SP` goes down by one and `PC` becomes the entry that was the top, as it stands;
everything else is as before. That `X` is ignored is the spec's decision D8. -/
def Obligations.ReturnPopsIntoPc : Prop :=
  (∀ x : Reg, decode (0x0#4 ++ x ++ 0xEE#8) = .ret) ∧
    ∀ s : State, ∀ h : 0 < s.sp.val, ∃ t, exec .ret s = .next t ∧
      t.sp.val + 1 = s.sp.val ∧ t.pc = s.stack[s.sp.val - 1]'(by have := s.sp.isLt; omega) ∧
      (∀ (k : Nat) (hk : k < 16), t.stack[k] = s.stack[k]) ∧
      KeepsRegs s t ∧ t.i = s.i ∧ KeepsMemory s t ∧ KeepsScreen s t ∧ KeepsTimers s t ∧ KeepsStatus s t ∧ KeepsInputs s t

/-- R81, R174: with no entry in use a `RET` reports StackUnderflow at its own `PC` and halts; nothing else changes (decisions D4, D7). -/
def Obligations.ReturnOnEmptyStackHalts : Prop :=
  ∀ s : State, s.sp.val = 0 → ∃ t, exec .ret s = .next t ∧
    Reports s t .stackUnderflow 0 ∧ t.halted = true ∧ t.pc = s.pc ∧ KeepsStack s t ∧
    KeepsRegs s t ∧ t.i = s.i ∧ KeepsMemory s t ∧ KeepsScreen s t ∧ KeepsTimers s t ∧ KeepsInputs s t

/-- R81, R83, the document's property of nested calls: after a `CALL`, whatever a subroutine does that leaves the entries in use as it found
them (calls and returns of its own included, which leave dead entries behind), a `RET` resumes at the address after the `CALL`, with the
depth and the entries from before it. The depth 16 is the spec's decision D3. -/
def Obligations.ReturnResumesAfterCall : Prop :=
  ∀ (nnn : Addr12) (s : State), s.sp.val < 16 → ∃ t, exec (.call nnn) s = .next t ∧
    ∀ u : State, u.sp = t.sp → (∀ (k : Nat) (h : k < 16), k < t.sp.val → u.stack[k] = t.stack[k]) → ∃ w, exec .ret u = .next w ∧
      PcAdvances s w 2 ∧ w.sp = s.sp ∧ ∀ (k : Nat) (h : k < 16), k < s.sp.val → w.stack[k] = s.stack[k]

/-! ### Immediates and the ALU (41_immediate_and_alu.md) -/

/-- R101: every word 0x6XNN is `LD Vx, NN`; `V[X]` becomes `NN`, `VF` included; `PC` moves by 2; nothing else changes. -/
def Obligations.LoadImmediateSetsRegister : Prop :=
  ∀ (x : Reg) (nn : Byte), decode (0x6#4 ++ x ++ nn) = .ldImm x nn ∧
    ∀ s : State, ∃ t, exec (.ldImm x nn) s = .next t ∧
      (∀ k : Reg, t.getV k = if k = x then nn else s.getV k) ∧ PcAdvances s t 2 ∧ t.i = s.i ∧ KeepsRest s t

/-- R102: every word 0x7XNN is `ADD Vx, NN`; `V[X]` becomes the sum mod 256, every other register, `VF` among them, is as before; `PC` moves
by 2; nothing else changes. -/
def Obligations.AddImmediateWrapsWithoutFlag : Prop :=
  ∀ (x : Reg) (nn : Byte), decode (0x7#4 ++ x ++ nn) = .addImm x nn ∧
    ∀ s : State, ∃ t, exec (.addImm x nn) s = .next t ∧
      (t.getV x).toNat = ((s.getV x).toNat + nn.toNat) % 256 ∧ (∀ k : Reg, k ≠ x → t.getV k = s.getV k) ∧
      PcAdvances s t 2 ∧ t.i = s.i ∧ KeepsRest s t

/-- R103 to R106: the words 0x8XY0 to 0x8XY3 are `LD`, `OR`, `AND`, `XOR`; `V[X]` becomes the copy or the bitwise result, every other
register, `VF` among them, is as before; `PC` moves by 2; nothing else changes. The sub-nibbles are the spec's decision D2, that `VF` is
left alone its decision D10. -/
def Obligations.CopyAndLogicWithoutFlag : Prop :=
  ∀ x y : Reg,
    decode (0x8#4 ++ x ++ y ++ 0x0#4) = .ldReg x y ∧ decode (0x8#4 ++ x ++ y ++ 0x1#4) = .orReg x y ∧
    decode (0x8#4 ++ x ++ y ++ 0x2#4) = .andReg x y ∧ decode (0x8#4 ++ x ++ y ++ 0x3#4) = .xorReg x y ∧
    ∀ s : State, ∀ p ∈ [(Instr.ldReg x y, fun _ b : Bool => b), (Instr.orReg x y, fun a b => a || b),
        (Instr.andReg x y, fun a b => a && b), (Instr.xorReg x y, fun a b => a ^^ b)],
      ∃ t, exec p.1 s = .next t ∧
        (∀ j < 8, (t.getV x).getLsbD j = p.2 ((s.getV x).getLsbD j) ((s.getV y).getLsbD j)) ∧
        (∀ k : Reg, k ≠ x → t.getV k = s.getV k) ∧ PcAdvances s t 2 ∧ t.i = s.i ∧ KeepsRest s t

/-- R107: every word 0x8XY4 is `ADD Vx, Vy`; `V[X]` becomes the sum mod 256 and `VF` 1 exactly if the sum exceeds 255, both from the values
before; every other register is as before; `PC` moves by 2; nothing else changes. That the flag is what remains when `X = 0xF` is the
spec's decision D9 (R100). -/
def Obligations.AddSetsCarryFlag : Prop :=
  ∀ x y : Reg, decode (0x8#4 ++ x ++ y ++ 0x4#4) = .addReg x y ∧
    ∀ s : State, ∃ t, exec (.addReg x y) s = .next t ∧
      (x ≠ regF → (t.getV x).toNat = ((s.getV x).toNat + (s.getV y).toNat) % 256) ∧
      (t.getV regF).toNat = (if (s.getV x).toNat + (s.getV y).toNat > 255 then 1 else 0) ∧
      (∀ k : Reg, k ≠ x → k ≠ regF → t.getV k = s.getV k) ∧ PcAdvances s t 2 ∧ t.i = s.i ∧ KeepsRest s t

/-- R108 and R110: every word 0x8XY5 is `SUB Vx, Vy` and every word 0x8XY7 is `SUBN Vx, Vy`; `V[X]` becomes `V[X] - V[Y]` (for `SUBN` the
other way round) mod 256, and `VF` 0 exactly on a borrow, both from the values before; every other register is as before; `PC` moves by 2;
nothing else changes. `X = 0xF` is the spec's decision D9; `SUBN` is its decision D1. -/
def Obligations.SubtractSetsNotBorrowFlag : Prop :=
  ∀ x y : Reg, decode (0x8#4 ++ x ++ y ++ 0x5#4) = .subReg x y ∧ decode (0x8#4 ++ x ++ y ++ 0x7#4) = .subnReg x y ∧
    ∀ s : State, ∀ p ∈ [(Instr.subReg x y, s.getV x, s.getV y), (Instr.subnReg x y, s.getV y, s.getV x)],
      ∃ t, exec p.1 s = .next t ∧
        (x ≠ regF → (t.getV x).toNat = (p.2.1.toNat + 256 - p.2.2.toNat) % 256) ∧
        (t.getV regF).toNat = (if p.2.1.toNat < p.2.2.toNat then 0 else 1) ∧
        (∀ k : Reg, k ≠ x → k ≠ regF → t.getV k = s.getV k) ∧ PcAdvances s t 2 ∧ t.i = s.i ∧ KeepsRest s t

/-- R109 and R111: every word 0x8XY6 is `SHR Vx, Vy` and every word 0x8XYE is `SHL Vx, Vy`; `V[X]` becomes `V[Y]` halved (doubled mod 256) and
`VF` the bit shifted out, both from the value before; every other register is as before; `PC` moves by 2; nothing else changes. The
sub-nibbles are the spec's decision D2, `X = 0xF` its decision D9. -/
def Obligations.ShiftsMoveVyIntoVx : Prop :=
  ∀ x y : Reg, decode (0x8#4 ++ x ++ y ++ 0x6#4) = .shrReg x y ∧ decode (0x8#4 ++ x ++ y ++ 0xE#4) = .shlReg x y ∧
    ∀ s : State, ∀ p ∈ [(Instr.shrReg x y, (s.getV y).toNat / 2, (s.getV y).toNat % 2),
        (Instr.shlReg x y, (s.getV y).toNat * 2 % 256, (s.getV y).toNat / 128)],
      ∃ t, exec p.1 s = .next t ∧
        (x ≠ regF → (t.getV x).toNat = p.2.1) ∧ (t.getV regF).toNat = p.2.2 ∧
        (∀ k : Reg, k ≠ x → k ≠ regF → t.getV k = s.getV k) ∧ PcAdvances s t 2 ∧ t.i = s.i ∧ KeepsRest s t

/-! ### The index register and memory (42_index_and_memory.md) -/

/-- R120: every word 0xANNN is `LD I, NNN`; `I` becomes `NNN`, its upper four bits 0; `PC` moves by 2; nothing else changes. -/
def Obligations.LoadIndexSetsI : Prop :=
  ∀ nnn : Addr12, decode (0xA#4 ++ nnn) = .ldI nnn ∧
    ∀ s : State, ∃ t, exec (.ldI nnn) s = .next t ∧
      t.i.toNat = nnn.toNat ∧ PcAdvances s t 2 ∧ KeepsRegs s t ∧ KeepsRest s t

/-- R121: every word 0xFX1E is `ADD I, Vx`; `I` becomes the sum mod 65536; `PC` moves by 2; nothing else changes, `VF` included. The instruction
is the spec's decision D1, the absent flag its decision D10, the width D15. -/
def Obligations.AddToIndexWraps : Prop :=
  ∀ x : Reg, decode (0xF#4 ++ x ++ 0x1E#8) = .addI x ∧
    ∀ s : State, ∃ t, exec (.addI x) s = .next t ∧
      t.i.toNat = (s.i.toNat + (s.getV x).toNat) % 65536 ∧ PcAdvances s t 2 ∧ KeepsRegs s t ∧ KeepsRest s t

/-- R122: every word 0xFX29 is `LD F, Vx`; `I` becomes `0x050 + 5 * d` for the low nibble `d` of `V[X]`; `PC` moves by 2; nothing else changes.
That the low nibble is taken of a value above 15 is the spec's decision D12. -/
def Obligations.GlyphAddressOfLowNibble : Prop :=
  ∀ x : Reg, decode (0xF#4 ++ x ++ 0x29#8) = .glyph x ∧
    ∀ s : State, ∃ t, exec (.glyph x) s = .next t ∧
      t.i.toNat = 0x050 + 5 * ((s.getV x).toNat % 16) ∧ PcAdvances s t 2 ∧ KeepsRegs s t ∧ KeepsRest s t

/-- R123: every word 0xFX33 is `LD B, Vx`; when `I + 2` is in memory, the three decimal digits of `V[X]` are at `I`, `I + 1`, `I + 2`, every
other byte reads as before, `PC` moves by 2, and nothing else changes (that the digits out of range are rejected whole is decision D5: see
AccessOutOfRangeRejected). -/
def Obligations.DecimalDigitsStored : Prop :=
  ∀ x : Reg, decode (0xF#4 ++ x ++ 0x33#8) = .bcd x ∧
    ∀ s : State, s.i.toNat + 2 < 4096 → ∃ t, exec (.bcd x) s = .next t ∧
      (Memory.byteAt t.mem s.i.toNat).toNat = (s.getV x).toNat / 100 ∧
      (Memory.byteAt t.mem (s.i.toNat + 1)).toNat = (s.getV x).toNat / 10 % 10 ∧
      (Memory.byteAt t.mem (s.i.toNat + 2)).toNat = (s.getV x).toNat % 10 ∧
      (∀ a : Nat, a < s.i.toNat ∨ s.i.toNat + 2 < a → Memory.byteAt t.mem a = Memory.byteAt s.mem a) ∧
      PcAdvances s t 2 ∧ KeepsRegs s t ∧ t.i = s.i ∧
      KeepsScreen s t ∧ KeepsStack s t ∧ KeepsTimers s t ∧ KeepsStatus s t ∧ KeepsInputs s t

/-- R124: every word 0xFX55 is `LD [I], Vx`; when `I + X` is in memory, `MEM[I + k]` is `V[k]` for `k` = 0 to `X`, every other byte reads as
before, `PC` moves by 2, and nothing else changes, `I` included (decision D11). -/
def Obligations.RegistersStoredAtI : Prop :=
  ∀ x : Reg, decode (0xF#4 ++ x ++ 0x55#8) = .storeRegs x ∧
    ∀ s : State, s.i.toNat + x.toNat < 4096 → ∃ t, exec (.storeRegs x) s = .next t ∧
      (∀ k : Reg, k.toNat ≤ x.toNat → Memory.byteAt t.mem (s.i.toNat + k.toNat) = s.getV k) ∧
      (∀ a : Nat, a < s.i.toNat ∨ s.i.toNat + x.toNat < a → Memory.byteAt t.mem a = Memory.byteAt s.mem a) ∧
      PcAdvances s t 2 ∧ KeepsRegs s t ∧ t.i = s.i ∧
      KeepsScreen s t ∧ KeepsStack s t ∧ KeepsTimers s t ∧ KeepsStatus s t ∧ KeepsInputs s t

/-- R125: every word 0xFX65 is `LD Vx, [I]`; when `I + X` is in memory, `V[k]` is `MEM[I + k]` for `k` = 0 to `X`, every other register is as
before, `PC` moves by 2, and nothing else changes, `I` included (decision D11). -/
def Obligations.RegistersLoadedFromI : Prop :=
  ∀ x : Reg, decode (0xF#4 ++ x ++ 0x65#8) = .loadRegs x ∧
    ∀ s : State, s.i.toNat + x.toNat < 4096 → ∃ t, exec (.loadRegs x) s = .next t ∧
      (∀ k : Reg, t.getV k = if k.toNat ≤ x.toNat then Memory.byteAt s.mem (s.i.toNat + k.toNat) else s.getV k) ∧
      PcAdvances s t 2 ∧ t.i = s.i ∧ KeepsRest s t

/-- R50, R172: `DRW` with `N ≥ 1`, `LD B`, `LD [I], Vx` and `LD Vx, [I]` that would touch an address of 4096 or more are rejected whole: the
lowest such address is reported, `PC` moves by 2, and nothing else changes. Rejecting, and going on, is the spec's decision D5; that `I + k`
does not wrap is D15, the report D7. -/
def Obligations.AccessOutOfRangeRejected : Prop :=
  ∀ (x y : Reg) (n : Nibble) (s : State),
    ∀ p ∈ [(Instr.drw x y n, n.toNat), (Instr.bcd x, 3), (Instr.storeRegs x, x.toNat + 1), (Instr.loadRegs x, x.toNat + 1)],
      1 ≤ p.2 → 4096 ≤ s.i.toNat + p.2 - 1 → ∃ t, exec p.1 s = .next t ∧
        Reports s t .memOutOfRange (if 4096 ≤ s.i.toNat then s.i.toNat else 4096) ∧ t.halted = s.halted ∧ PcAdvances s t 2 ∧
        KeepsRegs s t ∧ t.i = s.i ∧ KeepsMemory s t ∧ KeepsScreen s t ∧ KeepsStack s t ∧ KeepsTimers s t ∧ KeepsInputs s t

/-! ### The display (43_display.md) -/

/-- R140: every word 0x0XE0 is `CLS`; every pixel is unset, `DIRTY` is set, `PC` moves by 2, and nothing else changes. The sub-field 0xE0 is the
spec's decision D2, that `X` is ignored D8. -/
def Obligations.ClearScreenUnsetsPixels : Prop :=
  (∀ x : Reg, decode (0x0#4 ++ x ++ 0xE0#8) = .cls) ∧
    ∀ s : State, ∃ t, exec .cls s = .next t ∧
      (∀ x y : Nat, getPixel t.fb x y = false) ∧ t.dirty = true ∧ PcAdvances s t 2 ∧ KeepsRegs s t ∧ t.i = s.i ∧
      KeepsMemory s t ∧ KeepsStack s t ∧ KeepsTimers s t ∧ KeepsStatus s t ∧ KeepsInputs s t

/-- R141: every word 0xDXYN is `DRW Vx, Vy, N`; when the `N` rows at `I` are in memory (or `N = 0`), every pixel is XORed with the sprite's bit
there, the sprite at column `V[X]` and row `V[Y]` wrapping pixel by pixel; `VF` is 1 exactly if a 1 bit of the sprite lands on a set pixel,
else 0; `DIRTY` is set (decision D21); `PC` moves by 2; nothing else changes. -/
def Obligations.DrawXorsSprite : Prop :=
  ∀ (x y : Reg) (n : Nibble), decode (0xD#4 ++ x ++ y ++ n) = .drw x y n ∧
    ∀ s : State, n.toNat = 0 ∨ s.i.toNat + n.toNat ≤ 4096 → ∃ t, exec (.drw x y n) s = .next t ∧
      (∀ px py : Nat, getPixel t.fb px py = (getPixel s.fb px py ^^
        spriteBit (fun r => Memory.byteAt s.mem (s.i.toNat + r)) n.toNat (s.getV x).toNat (s.getV y).toNat px py)) ∧
      (t.getV regF = 0x01#8 ∨ t.getV regF = 0x00#8) ∧
      (t.getV regF = 0x01#8 ↔ ∃ px < 64, ∃ py < 32, getPixel s.fb px py = true ∧
        spriteBit (fun r => Memory.byteAt s.mem (s.i.toNat + r)) n.toNat (s.getV x).toNat (s.getV y).toNat px py = true) ∧
      t.dirty = true ∧ PcAdvances s t 2 ∧ (∀ k : Reg, k ≠ regF → t.getV k = s.getV k) ∧ t.i = s.i ∧
      KeepsMemory s t ∧ KeepsStack s t ∧ KeepsTimers s t ∧ KeepsStatus s t ∧ KeepsInputs s t

/-- R142: two draws of the same sprite at the same coordinates restore the framebuffer, and the second reports a collision exactly if some 1 bit
of the sprite lands on a pixel that was unset before the first. The coordinates are the same when `V[X]` and `V[Y]` are not changed by the
first draw, which writes `VF`. -/
def Obligations.DrawTwiceRestoresScreen : Prop :=
  ∀ (x y : Reg) (n : Nibble) (s : State), n.toNat = 0 ∨ s.i.toNat + n.toNat ≤ 4096 →
    ∃ t, exec (.drw x y n) s = .next t ∧
      (t.getV x = s.getV x → t.getV y = s.getV y → ∃ u, exec (.drw x y n) t = .next u ∧ u.fb = s.fb ∧
        (u.getV regF = 0x01#8 ↔ ∃ px < 64, ∃ py < 32, getPixel s.fb px py = false ∧
          spriteBit (fun r => Memory.byteAt s.mem (s.i.toNat + r)) n.toNat (s.getV x).toNat (s.getV y).toNat px py = true))

/-! ### Keys, timers, random (44_keys_timers_random.md) -/

/-- R150 and R151: every word 0xEX9E is `SKP Vx` and every word 0xEXA1 is `SKNP Vx`; under the key snapshot of the step, `PC` moves by 4 if the
key whose number is the whole byte `V[X]` is down (is not down), else by 2; the snapshot is used up and nothing else changes. That no key has
a number above 15 is the spec's decision D13; that the snapshot is the free value `Config.keys` is the model's (log entry 3). -/
def Obligations.SkipOnKeyState : Prop :=
  ∀ x : Reg, decode (0xE#4 ++ x ++ 0x9E#8) = .skp x ∧ decode (0xE#4 ++ x ++ 0xA1#8) = .sknp x ∧
    ∀ s : State,
      (∃ t, exec (.skp x) s = .next t ∧
        PcAdvances s t (if (s.getV x).toNat ≤ 15 ∧ (Config.keys s.keyIndex).getLsbD (s.getV x).toNat = true then 4 else 2) ∧
        t.keyIndex = s.keyIndex + 1 ∧ t.randIndex = s.randIndex ∧ KeepsRegs s t ∧ t.i = s.i ∧
        KeepsMemory s t ∧ KeepsScreen s t ∧ KeepsStack s t ∧ KeepsTimers s t ∧ KeepsStatus s t) ∧
      (∃ t, exec (.sknp x) s = .next t ∧
        PcAdvances s t (if (s.getV x).toNat ≤ 15 ∧ (Config.keys s.keyIndex).getLsbD (s.getV x).toNat = true then 2 else 4) ∧
        t.keyIndex = s.keyIndex + 1 ∧ t.randIndex = s.randIndex ∧ KeepsRegs s t ∧ t.i = s.i ∧
        KeepsMemory s t ∧ KeepsScreen s t ∧ KeepsStack s t ∧ KeepsTimers s t ∧ KeepsStatus s t)

/-- R152: every word 0xFX0A is `LD Vx, K`; under the key snapshot of the step, with no key down `PC` and every register stay, else `V[X]` becomes
the least key down and `PC` moves by 2; the snapshot is used up and nothing else changes. The instruction is the spec's decision D1, its form
D14; that the snapshot is the free value `Config.keys` is the model's (log entry 3). -/
def Obligations.WaitTakesLeastKey : Prop :=
  ∀ x : Reg, decode (0xF#4 ++ x ++ 0x0A#8) = .waitKey x ∧
    ∀ s : State, ∃ t, exec (.waitKey x) s = .next t ∧
      (if Config.keys s.keyIndex = 0x0000#16 then t.pc = s.pc ∧ KeepsRegs s t
       else PcAdvances s t 2 ∧ (t.getV x).toNat < 16 ∧ (Config.keys s.keyIndex).getLsbD (t.getV x).toNat = true ∧
        (∀ k < (t.getV x).toNat, (Config.keys s.keyIndex).getLsbD k = false) ∧ ∀ k : Reg, k ≠ x → t.getV k = s.getV k) ∧
      t.keyIndex = s.keyIndex + 1 ∧ t.randIndex = s.randIndex ∧ t.i = s.i ∧
      KeepsMemory s t ∧ KeepsScreen s t ∧ KeepsStack s t ∧ KeepsTimers s t ∧ KeepsStatus s t

/-- R153: every word 0xFX07 is `LD Vx, DT`; `V[X]` becomes `DT`, `PC` moves by 2, and nothing else changes, `DT` included. -/
def Obligations.DelayTimerRead : Prop :=
  ∀ x : Reg, decode (0xF#4 ++ x ++ 0x07#8) = .getDt x ∧
    ∀ s : State, ∃ t, exec (.getDt x) s = .next t ∧
      (∀ k : Reg, t.getV k = if k = x then s.dt else s.getV k) ∧ PcAdvances s t 2 ∧ t.i = s.i ∧ KeepsRest s t

/-- R154: every word 0xFX15 is `LD DT, Vx`; `DT` becomes `V[X]`, `PC` moves by 2, and nothing else changes. -/
def Obligations.DelayTimerSet : Prop :=
  ∀ x : Reg, decode (0xF#4 ++ x ++ 0x15#8) = .setDt x ∧
    ∀ s : State, ∃ t, exec (.setDt x) s = .next t ∧
      t.dt = s.getV x ∧ t.st = s.st ∧ PcAdvances s t 2 ∧ KeepsRegs s t ∧ t.i = s.i ∧
      KeepsMemory s t ∧ KeepsScreen s t ∧ KeepsStack s t ∧ KeepsStatus s t ∧ KeepsInputs s t

/-- R155: every word 0xFX18 is `LD ST, Vx`; `ST` becomes `V[X]`, `PC` moves by 2, and nothing else changes; `SOUND_ON` is then up exactly if the
byte is not 0 (that a tone sounds while `ST` is not 0 is what the spec marks general knowledge, decision D26). -/
def Obligations.SoundTimerSet : Prop :=
  ∀ x : Reg, decode (0xF#4 ++ x ++ 0x18#8) = .setSt x ∧
    ∀ s : State, ∃ t, exec (.setSt x) s = .next t ∧
      t.st = s.getV x ∧ t.dt = s.dt ∧ (t.soundOn = true ↔ (s.getV x).toNat ≠ 0) ∧ PcAdvances s t 2 ∧ KeepsRegs s t ∧ t.i = s.i ∧
      KeepsMemory s t ∧ KeepsScreen s t ∧ KeepsStack s t ∧ KeepsStatus s t ∧ KeepsInputs s t

/-- R156: every word 0xCXNN is `RND Vx, NN`; `V[X]` becomes the drawn byte under the mask `NN`, bit by bit, one byte is drawn, `PC` moves by 2, and
nothing else changes. That the byte is free is the spec's decision D19; that it is `Config.rand` is the model's (log entry 4). -/
def Obligations.RandomByteUnderMask : Prop :=
  ∀ (x : Reg) (nn : Byte), decode (0xC#4 ++ x ++ nn) = .rnd x nn ∧
    ∀ s : State, ∃ t, exec (.rnd x nn) s = .next t ∧
      (∀ j < 8, (t.getV x).getLsbD j = ((Config.rand s.randIndex).getLsbD j && nn.getLsbD j)) ∧
      (∀ k : Reg, k ≠ x → t.getV k = s.getV k) ∧ t.randIndex = s.randIndex + 1 ∧ t.keyIndex = s.keyIndex ∧
      PcAdvances s t 2 ∧ t.i = s.i ∧ KeepsMemory s t ∧ KeepsScreen s t ∧ KeepsStack s t ∧ KeepsTimers s t ∧ KeepsStatus s t

/-! ### Decoding and encoding (30_encoding.md) -/

/-- R67, R171: a word decodes to `UNIMPL`, and then to that of the word itself, exactly if it is in the unrecognized set; it is then reported with
the word as information, `PC` moves by 2, and nothing else changes. The report's form is the spec's decision D7. -/
def Obligations.UnrecognizedWordsReported : Prop :=
  ∀ op : Opcode, (decode op = .unimpl op ↔ unrecognized op = true) ∧ (∀ op' : Opcode, decode op = .unimpl op' → op' = op) ∧
    ∀ s : State, ∃ t, exec (.unimpl op) s = .next t ∧
      Reports s t .unimplementedInstruction op.toNat ∧ t.halted = s.halted ∧ PcAdvances s t 2 ∧
      KeepsRegs s t ∧ t.i = s.i ∧ KeepsMemory s t ∧ KeepsScreen s t ∧ KeepsStack s t ∧ KeepsTimers s t ∧ KeepsInputs s t

/-- R65, R66: the opcode map. A word matches the row of the instruction it decodes to, and of no other row than `UNIMPL`: an instruction whose row
it matches has the same mask and match. -/
def Obligations.OpcodeMapSelectsOneRow : Prop :=
  ∀ op : Opcode, op &&& (decode op).mask = (decode op).pattern ∧
    ∀ i : Instr, i.mask ≠ 0x0000#16 → op &&& i.mask = i.pattern → (decode op).mask = i.mask ∧ (decode op).pattern = i.pattern

/-- R66, R68: decoding the encoding of a well-formed instruction gives it back, with every operand at every value; and what the decoder gives is
always well-formed. -/
def Obligations.DecodeOfEncode : Prop :=
  (∀ i : Instr, i.wellFormed = true → decode (encode i) = i) ∧ ∀ op : Opcode, (decode op).wellFormed = true

/-- The seventeen decode vectors of 95_test_vectors.md section 3, each as the two bytes at `PC` and `PC + 1`: the words written out from the
encodings of R66. The words with ignored bits are decision D8, the sub-field of `CLS` D2. -/
def Obligations.SampleWordsDecode : Prop :=
  decodeBytes [0x12#8, 0x34#8] = .ok (.jp 0x234#12, []) ∧
  decodeBytes [0xD1#8, 0x2A#8] = .ok (.drw 0x1#4 0x2#4 0xA#4, []) ∧
  decodeBytes [0x8A#8, 0xB4#8] = .ok (.addReg 0xA#4 0xB#4, []) ∧
  decodeBytes [0xF2#8, 0x65#8] = .ok (.loadRegs 0x2#4, []) ∧
  decodeBytes [0x00#8, 0xE0#8] = .ok (.cls, []) ∧
  decodeBytes [0x0A#8, 0xE0#8] = .ok (.cls, []) ∧
  decodeBytes [0x0F#8, 0xEE#8] = .ok (.ret, []) ∧
  decodeBytes [0x51#8, 0x2F#8] = .ok (.seReg 0x1#4 0x2#4, []) ∧
  decodeBytes [0x91#8, 0x25#8] = .ok (.sneReg 0x1#4 0x2#4, []) ∧
  decodeBytes [0x00#8, 0x00#8] = .ok (.unimpl 0x0000#16, []) ∧
  decodeBytes [0x01#8, 0x23#8] = .ok (.unimpl 0x0123#16, []) ∧
  decodeBytes [0x81#8, 0x28#8] = .ok (.unimpl 0x8128#16, []) ∧
  decodeBytes [0x81#8, 0x2F#8] = .ok (.unimpl 0x812F#16, []) ∧
  decodeBytes [0xE1#8, 0x9F#8] = .ok (.unimpl 0xE19F#16, []) ∧
  decodeBytes [0xE1#8, 0x00#8] = .ok (.unimpl 0xE100#16, []) ∧
  decodeBytes [0xF1#8, 0x75#8] = .ok (.unimpl 0xF175#16, []) ∧
  decodeBytes [0xFF#8, 0xFF#8] = .ok (.unimpl 0xFFFF#16, [])

/-- R60: every instruction is exactly two bytes long: the decoder takes the first two bytes of any sequence, high byte first, and leaves the
rest; from fewer than two it reads no instruction. That it then answers an error that says how many bytes there were is the model's own form
(log entry 8). -/
def Obligations.InstructionsAreTwoBytes : Prop :=
  ∀ bs : List Byte,
    (∀ h : 2 ≤ bs.length, ∃ op : Opcode, op.toNat = bs[0].toNat * 256 + bs[1].toNat ∧ decodeBytes bs = .ok (decode op, bs.drop 2)) ∧
    (bs.length < 2 → decodeBytes bs = .error (.tooShort bs.length))

/-! ### Memory (20_memory.md) -/

/-- R41, R42: a byte read inside memory gives the byte there and fails outside it; a byte write inside memory changes that one byte and no other,
and fails outside it. -/
def Obligations.ByteReadsBackAsWritten : Prop :=
  ∀ (m : List Host.Cell) (a : Nat) (v : Byte),
    (Memory.readByte m a = if a < 4096 then some (Memory.byteAt m a) else none) ∧
    (4096 ≤ a → Memory.writeByte m a v = none) ∧
    (a < 4096 → ∃ m', Memory.writeByte m a v = some m' ∧ Memory.readByte m' a = some v ∧
      ∀ b, b ≠ a → Memory.readByte m' b = Memory.readByte m b)

/-- The canonical form of memory is the model's own (log entry 1): a byte write keeps it, and two memories in it of which the same is known at
every address are the same list of cells, so that equal memories are equal data. -/
def Obligations.MemoryFormIsCanonical : Prop :=
  (∀ (m m' : List Host.Cell) (a : Nat) (v : Byte), Memory.wf m = true → Memory.writeByte m a v = some m' → Memory.wf m' = true) ∧
  ∀ m m' : List Host.Cell, Memory.wf m = true → Memory.wf m' = true →
    (∀ a : Nat, Memory.lookup m a = Memory.lookup m' a) → m = m'

/-- R43: the fetch is big-endian: with `PC` and `PC + 1` in memory, the opcode word is `MEM[PC] * 256 + MEM[PC + 1]`. -/
def Obligations.FetchIsBigEndian : Prop :=
  ∀ s : State, s.pc.toNat < 4095 → ∃ op, s.fetch = some op ∧
    op.toNat = (Memory.byteAt s.mem s.pc.toNat).toNat * 256 + (Memory.byteAt s.mem (s.pc.toNat + 1)).toNat

/-- R53, R55: what `LD B` or `LD [I], Vx` stores is what the very next fetch reads, whether the block holds both bytes of the next instruction,
one of them or neither: a byte of the block is the byte stored, every other the byte that was there (decision D24; that a block out of range is
rejected whole is D5: see AccessOutOfRangeRejected). -/
def Obligations.StoreSeenByNextFetch : Prop :=
  ∀ (x : Reg) (s : State),
    ∀ p ∈ [(Instr.bcd x, 3, fun k : Nat => BitVec.ofNat 8 ((s.getV x).toNat / 10 ^ (2 - k) % 10)),
        (Instr.storeRegs x, x.toNat + 1, fun k : Nat => s.getV (BitVec.ofNat 4 k))],
      s.i.toNat + p.2.1 ≤ 4096 → s.pc.toNat + 3 < 4096 → ∃ t, exec p.1 s = .next t ∧
        t.fetch = some (assembleWord
          (if s.i.toNat ≤ s.pc.toNat + 2 ∧ s.pc.toNat + 2 < s.i.toNat + p.2.1 then p.2.2 (s.pc.toNat + 2 - s.i.toNat)
            else Memory.byteAt s.mem (s.pc.toNat + 2))
          (if s.i.toNat ≤ s.pc.toNat + 3 ∧ s.pc.toNat + 3 < s.i.toNat + p.2.1 then p.2.2 (s.pc.toNat + 3 - s.i.toNat)
            else Memory.byteAt s.mem (s.pc.toNat + 3)))

/-! ### The step cycle and the conditions (30_encoding.md R64, 60_exceptions.md) -/

/-- R64: when the core is not halted and the two bytes at `PC` decode to an instruction, a step is `exec` of that instruction on the state, its
report output cleared first. -/
def Obligations.StepRunsDecodedInstruction : Prop :=
  ∀ (s : State) (i : Instr), s.halted = false → s.pc.toNat < 4095 →
    decodeBytes [Memory.byteAt s.mem s.pc.toNat, Memory.byteAt s.mem (s.pc.toNat + 1)] = .ok (i, []) →
    step s = exec i { s with report := none }

/-- R51, R175, R176: with the core not halted and `PC ≥ 4095`, a step reports FetchOutOfRange with `PC` as information and halts; nothing else
changes (decision D6). -/
def Obligations.FetchOutOfRangeHalts : Prop :=
  ∀ s : State, s.halted = false → 4095 ≤ s.pc.toNat → ∃ t, step s = .next t ∧
    Reports s t .fetchOutOfRange s.pc.toNat ∧ t.halted = true ∧ t.pc = s.pc ∧ KeepsRegs s t ∧ t.i = s.i ∧
    KeepsMemory s t ∧ KeepsScreen s t ∧ KeepsStack s t ∧ KeepsTimers s t ∧ KeepsInputs s t

/-- R19, R64, R178: a step of a halted core changes nothing and reports nothing (decision D27), and so does every later one: any number of steps
gives the same state. -/
def Obligations.HaltedStepsChangeNothing : Prop :=
  ∀ (s : State) (n : Nat), s.halted = true → fireAll .loaded (List.replicate (n + 1) .step) s = .next { s with report := none }

/-- The whole machine: every step of every state answers a next state; no step ends in a fault or a refusal ("must not crash": every condition of
R170 is a next state). -/
def Obligations.EveryStepAnswersNext : Prop := ∀ s : State, ∃ t, step s = .next t

/-- R20, R170, R176: a step raises at most one condition. With no report `HALTED` and `ERR` are as before; with one it names the `PC` of the
instruction, exactly its bit of `ERR` is set, and the core halts exactly if it is fatal (decision D7). -/
def Obligations.ReportAgreesWithStatus : Prop :=
  ∀ s t : State, step s = .next t →
    match t.report with
    | none => t.halted = s.halted ∧ t.err = s.err
    | some r => s.halted = false ∧ Reports s t r.condition r.info ∧
        (t.halted = true ↔ r.condition.code = 3 ∨ r.condition.code = 4 ∨ r.condition.code = 5)

/-- R19, R20, R178: `HALTED` and the bits of `ERR` are never cleared except by `reset`: not by a step, a tick, a present or a load (decision D27). -/
def Obligations.StatusIsSticky : Prop :=
  ∀ (tr : Transition) (s t : State), tr ≠ .reset → fire tr s = .next t →
    (s.halted = true → t.halted = true) ∧ ∀ k : Nat, s.err.getLsbD k = true → t.err.getLsbD k = true

/-! ### What steps leave alone: rules about the whole machine -/

/-- R44, R49 and 90_conflicts.md C14: a step changes a byte of memory only if it runs `LD B` or `LD [I], Vx`, and then only a byte of the block at `I`. -/
def Obligations.OnlyStoresWriteMemory : Prop :=
  ∀ (s t : State) (a : Nat), step s = .next t → Memory.byteAt t.mem a ≠ Memory.byteAt s.mem a →
    s.halted = false ∧ a < 4096 ∧ ∃ op x, s.fetch = some op ∧
      ((decode op = .bcd x ∧ s.i.toNat ≤ a ∧ a ≤ s.i.toNat + 2) ∨
       (decode op = .storeRegs x ∧ s.i.toNat ≤ a ∧ a ≤ s.i.toNat + x.toNat))

/-- R17, R18: a step changes a pixel or `DIRTY` only if it runs `CLS` or `DRW`, and no step clears `DIRTY`. -/
def Obligations.OnlyClearAndDrawWriteScreen : Prop :=
  ∀ s t : State, step s = .next t →
    (KeepsScreen s t ∨ ∃ op, s.halted = false ∧ s.fetch = some op ∧ (decode op = .cls ∨ ∃ x y n, decode op = .drw x y n)) ∧
    (s.dirty = true → t.dirty = true)

/-- R15, R64, R181: a step leaves each timer as it was, unless it runs the instruction that sets that timer, which sets it to `V[X]`: no step
decrements a timer. -/
def Obligations.StepsDoNotCountTimersDown : Prop :=
  ∀ s t : State, step s = .next t →
    (t.dt = s.dt ∨ ∃ op x, s.fetch = some op ∧ decode op = .setDt x ∧ t.dt = s.getV x) ∧
    (t.st = s.st ∨ ∃ op x, s.fetch = some op ∧ decode op = .setSt x ∧ t.st = s.getV x)

/-- R10, R11: a register is changed only by an instruction that names it as a destination, and `VF` besides by the six that write it as a flag,
which leave 0 or 1 in it. A `DRW` that is rejected, and reports so, leaves it as it was (R50, decision D5), and no other of the six does. -/
def Obligations.RegisterWritesAreNamed : Prop :=
  ∀ (i : Instr) (s t : State), exec i s = .next t →
    (∀ x : Reg, i.writesReg x = false → (x ≠ regF ∨ i.writesFlag = false) → t.getV x = s.getV x) ∧
    (i.writesFlag = true → (t.getV regF).toNat ≤ 1 ∨
      ∃ x y n info, i = .drw x y n ∧ Reports s t .memOutOfRange info ∧ t.getV regF = s.getV regF)

/-- R80 and the document's first testable property: an instruction that is no control transfer moves `PC` by 2, also when it raises one of the two
recoverable conditions; a skip moves it by 2 or 4; a wait for a key by 2 or not at all. -/
def Obligations.DefaultAdvanceIsTwo : Prop :=
  ∀ (i : Instr) (s t : State), exec i s = .next t →
    (i.movesPc = false → PcAdvances s t 2) ∧
    (i.skips = true → PcAdvances s t 2 ∨ PcAdvances s t 4) ∧
    (∀ x : Reg, i = .waitKey x → t.pc = s.pc ∨ PcAdvances s t 2)

/-- R206 (b): a jump to itself is a fixed point of `step`: with no report standing at the output, the state is the same after it. -/
def Obligations.SelfJumpIsFixedPoint : Prop :=
  ∀ (s : State) (nnn : Addr12), s.halted = false → s.report = none → s.pc.toNat = nnn.toNat →
    s.fetch = some (0x1#4 ++ nnn) → step s = .next s

/-! ### Reset, load, tick, present, and the invariant -/

/-- R26, R200: the reset state, and that `reset` gives it from any state, whatever the core held; that the places in the two free inputs, which are
no state of the core, go on is the model's choice (log entries 3 and 4). `PC`, the clear framebuffer and the written glyphs are the document's;
the zeros, `DIRTY`, `HALTED` and `ERR` are the spec's decisions D17, D21, D27, D7; the glyph bytes are its general knowledge (log entry 2). -/
def Obligations.ResetValues : Prop :=
  (∀ s : State, fire .reset s = .next { State.reset with keyIndex := s.keyIndex, randIndex := s.randIndex }) ∧
  State.reset.pc.toNat = 0x200 ∧ (∀ x y : Nat, getPixel State.reset.fb x y = false) ∧
  (∀ a, a < 80 → some (Memory.byteAt State.reset.mem (0x050 + a)) = glyphRom[a]?) ∧
  (∀ a, a < 0x050 ∨ 0x0A0 ≤ a → Memory.byteAt State.reset.mem a = Config.memInit a) ∧
  (∀ x : Reg, State.reset.getV x = 0x00#8) ∧ State.reset.i.toNat = 0 ∧ State.reset.sp.val = 0 ∧
  State.reset.dt.toNat = 0 ∧ State.reset.st.toNat = 0 ∧ State.reset.dirty = true ∧ State.reset.halted = false ∧
  State.reset.noReport

/-- R13, R14, R19, R20, R26: the invariant holds right after reset. That memory is in canonical form, its first clause, is the model's choice
of how memory is represented (log entry 1), and no rule of the spec; the others follow from the reset values of R26, those of
`ERR` and `HALTED` by the spec's decisions D7 and D27. -/
def Obligations.InvariantHoldsAtReset : Prop := State.reset.Inv

/-- R13, R19, R20: every transition the machine has keeps the invariant, from every state that meets it: `HALTED` says exactly that a fatal
condition is recorded (decisions D7, D27), `PC` and the stack entries in use stay in the range R13 gives (D16), and memory stays in canonical
form. That last clause is the model's choice of how memory is represented (log entry 1), and no rule of the spec. -/
def Obligations.EveryTransitionKeepsInvariant : Prop :=
  ∀ (tr : Transition) (s t : State), s.Inv → fire tr s = .next t → t.Inv

/-- R181: a tick takes one from each timer that is not 0 and leaves a timer at 0, whatever else the state holds; nothing else changes. -/
def Obligations.TickCountsTimersDown : Prop :=
  ∀ s : State, ∃ t, fire .tick s = .next t ∧
    t.dt.toNat = s.dt.toNat - 1 ∧ t.st.toNat = s.st.toNat - 1 ∧ t.pc = s.pc ∧ KeepsRegs s t ∧ t.i = s.i ∧
    KeepsMemory s t ∧ KeepsScreen s t ∧ KeepsStack s t ∧ KeepsStatus s t ∧ KeepsInputs s t

/-- R185: `present` hands out the grid and clears `DIRTY`; the grid itself, and everything else, is unchanged. -/
def Obligations.PresentClearsDirty : Prop :=
  ∀ s : State, s.view = s.fb ∧ ∃ t, fire .present s = .next t ∧
    t.dirty = false ∧ (∀ x y : Nat, getPixel t.fb x y = getPixel s.view x y) ∧ t.pc = s.pc ∧ KeepsRegs s t ∧ t.i = s.i ∧
    KeepsMemory s t ∧ KeepsStack s t ∧ KeepsTimers s t ∧ KeepsStatus s t ∧ KeepsInputs s t

/-- R201: `load` copies the program's bytes verbatim to 0x200 and up and changes nothing else, if there are at most 3584; a longer program is
refused (decision D22). -/
def Obligations.LoadPlacesProgram : Prop :=
  ∀ (bytes : List Byte) (s : State),
    (bytes.length ≤ 3584 → ∃ t, fire (.load bytes) s = .next t ∧
      (∀ (k : Nat) (h : k < bytes.length), Memory.byteAt t.mem (0x200 + k) = bytes[k]) ∧
      (∀ a : Nat, a < 0x200 ∨ 0x200 + bytes.length ≤ a → Memory.byteAt t.mem a = Memory.byteAt s.mem a) ∧
      t.pc = s.pc ∧ KeepsRegs s t ∧ t.i = s.i ∧ KeepsScreen s t ∧ KeepsStack s t ∧ KeepsTimers s t ∧ KeepsStatus s t ∧ KeepsInputs s t) ∧
    (3584 < bytes.length → fire (.load bytes) s = .refused (.programTooLong bytes.length))

/-- R57: the order of the host's transitions, and who writes memory in a run.
After a construction ticks and presents may come; then a step is refused, and a `load` of a program that fits is taken. Once the program is
loaded and until the next construction, a `load` is refused wherever a run reaches it. A `reset` starts a construction, wherever it stands. So a run
from a construction to before the next is ticks and presents alone, or has exactly one `load`, with no step before it.
Once the program is loaded, memory is written by the program alone: if a byte differs at the end of a run with no new construction, some step
of the run, of a core not halted, was a store to it.
That a step waits for the `load` is read from R201 (log entry 11); that the inputs go on over a `reset` is the model's choice (log entries 3
and 4); the length that fits is decision D22. -/
def Obligations.HostLoadsOnce : Prop :=
  (∀ (pre ts : List Transition) (s : State), OnlyTicksAndPresents pre →
    fireAll .constructed (pre ++ .step :: ts) s = .refused .outOfOrder) ∧
  (∀ (pre : List Transition) (bytes : List Byte) (ts : List Transition) (s : State), OnlyTicksAndPresents pre → bytes.length ≤ 3584 →
    ∃ t, fireAll .constructed (pre ++ [.load bytes]) s = .next t ∧
      fireAll .constructed (pre ++ .load bytes :: ts) s = fireAll .loaded ts t) ∧
  (∀ (pre : List Transition) (bytes : List Byte) (ts : List Transition) (s u : State), .reset ∉ pre → fireAll .loaded pre s = .next u →
    fireAll .loaded (pre ++ .load bytes :: ts) s = .refused .outOfOrder) ∧
  (∀ (p : Phase) (ts : List Transition) (s : State),
    fireAll p (.reset :: ts) s = fireAll .constructed ts { State.reset with keyIndex := s.keyIndex, randIndex := s.randIndex }) ∧
  (∀ (ts : List Transition) (s t : State), .reset ∉ ts → fireAll .constructed ts s = .next t →
    OnlyTicksAndPresents ts ∨
    ∃ pre bytes post, ts = pre ++ .load bytes :: post ∧ OnlyTicksAndPresents pre ∧ ∀ bytes', .load bytes' ∉ post) ∧
  ∀ (ts : List Transition) (s t : State), .reset ∉ ts → fireAll .loaded ts s = .next t →
    (∀ bytes, .load bytes ∉ ts) ∧
    ∀ a : Nat, Memory.byteAt t.mem a ≠ Memory.byteAt s.mem a →
      ∃ pre post u op x, ts = pre ++ .step :: post ∧ fireAll .loaded pre s = .next u ∧ u.halted = false ∧ u.fetch = some op ∧
        ((decode op = .bcd x ∧ u.i.toNat ≤ a ∧ a ≤ u.i.toNat + 2) ∨
         (decode op = .storeRegs x ∧ u.i.toNat ≤ a ∧ a ≤ u.i.toNat + x.toNat))
end

