-- ==== Sys2Proof/Laws/Encoding.lean ====
section
/-! SUPPORT. The fields of a word put together from fields (30_encoding.md R61, R62): each field reads back. -/

namespace Sys2Proof

/-! ### Format `NNN` -/

@[simp] theorem opClass_wordNNN (c : BitVec 4) (nnn : Addr12) : opClass (wordNNN c nnn) = c := by
  apply BitVec.eq_of_getLsbD_eq
  intro j hj
  simp only [opClass, wordNNN, BitVec.getLsbD_extractLsb', BitVec.getLsbD_append]
  simp [hj]

@[simp] theorem fieldNNN_wordNNN (c : BitVec 4) (nnn : Addr12) : fieldNNN (wordNNN c nnn) = nnn := by
  apply BitVec.eq_of_getLsbD_eq
  intro j hj
  simp only [fieldNNN, wordNNN, BitVec.getLsbD_extractLsb', BitVec.getLsbD_append]
  simp [hj]

/-! ### Format `XNN` -/

@[simp] theorem opClass_wordXNN (c : BitVec 4) (x : Reg) (nn : Byte) : opClass (wordXNN c x nn) = c := by
  apply BitVec.eq_of_getLsbD_eq
  intro j hj
  simp only [opClass, wordXNN, BitVec.getLsbD_extractLsb', BitVec.getLsbD_append]
  have h1 : ¬ 12 + j < 8 := by omega
  have h2 : ¬ 12 + j - 8 < 4 := by omega
  have h3 : 12 + j - 8 - 4 = j := by omega
  simp [hj, h1, h2, h3]

@[simp] theorem fieldX_wordXNN (c : BitVec 4) (x : Reg) (nn : Byte) : fieldX (wordXNN c x nn) = x := by
  apply BitVec.eq_of_getLsbD_eq
  intro j hj
  simp only [fieldX, wordXNN, BitVec.getLsbD_extractLsb', BitVec.getLsbD_append]
  simp [hj]

@[simp] theorem fieldNN_wordXNN (c : BitVec 4) (x : Reg) (nn : Byte) : fieldNN (wordXNN c x nn) = nn := by
  apply BitVec.eq_of_getLsbD_eq
  intro j hj
  simp only [fieldNN, wordXNN, BitVec.getLsbD_extractLsb', BitVec.getLsbD_append]
  simp [hj]

/-! ### Format `XYN` -/

@[simp] theorem opClass_wordXYN (c : BitVec 4) (x y : Reg) (n : Nibble) : opClass (wordXYN c x y n) = c := by
  apply BitVec.eq_of_getLsbD_eq
  intro j hj
  simp only [opClass, wordXYN, BitVec.getLsbD_extractLsb', BitVec.getLsbD_append]
  have h1 : ¬ 12 + j < 4 := by omega
  have h2 : ¬ 12 + j - 4 < 4 := by omega
  have h3 : ¬ 12 + j - 4 - 4 < 4 := by omega
  have h4 : 12 + j - 4 - 4 - 4 = j := by omega
  simp [hj, h1, h2, h3, h4]

@[simp] theorem fieldX_wordXYN (c : BitVec 4) (x y : Reg) (n : Nibble) : fieldX (wordXYN c x y n) = x := by
  apply BitVec.eq_of_getLsbD_eq
  intro j hj
  simp only [fieldX, wordXYN, BitVec.getLsbD_extractLsb', BitVec.getLsbD_append]
  have h1 : ¬ 8 + j < 4 := by omega
  have h2 : ¬ 8 + j - 4 < 4 := by omega
  have h3 : 8 + j - 4 - 4 = j := by omega
  simp [hj, h1, h2, h3]

@[simp] theorem fieldY_wordXYN (c : BitVec 4) (x y : Reg) (n : Nibble) : fieldY (wordXYN c x y n) = y := by
  apply BitVec.eq_of_getLsbD_eq
  intro j hj
  simp only [fieldY, wordXYN, BitVec.getLsbD_extractLsb', BitVec.getLsbD_append]
  simp [hj]

@[simp] theorem fieldN_wordXYN (c : BitVec 4) (x y : Reg) (n : Nibble) : fieldN (wordXYN c x y n) = n := by
  apply BitVec.eq_of_getLsbD_eq
  intro j hj
  simp only [fieldN, wordXYN, BitVec.getLsbD_extractLsb', BitVec.getLsbD_append]
  simp [hj]

/-! ### A word from its fields (R61) -/

/-- A word is its class, `X`, `Y` and `N` put together. -/
theorem word_of_fields (op : Opcode) : wordXYN (opClass op) (fieldX op) (fieldY op) (fieldN op) = op := by
  apply BitVec.eq_of_getLsbD_eq
  intro j hj
  simp only [wordXYN, opClass, fieldX, fieldY, fieldN, BitVec.getLsbD_append, BitVec.getLsbD_extractLsb']
  interval_cases j <;> simp

/-- `NN` is `Y` and `N` put together. -/
theorem fieldNN_eq_append (op : Opcode) : fieldNN op = fieldY op ++ fieldN op := by
  apply BitVec.eq_of_getLsbD_eq
  intro j hj
  simp only [fieldNN, fieldY, fieldN, BitVec.getLsbD_append, BitVec.getLsbD_extractLsb']
  interval_cases j <;> simp

/-- Two words of the same format are equal exactly when their fields are. -/
theorem wordXYN_inj {c c' : BitVec 4} {x y x' y' : Reg} {n n' : Nibble} :
    wordXYN c x y n = wordXYN c' x' y' n' ↔ c = c' ∧ x = x' ∧ y = y' ∧ n = n' := by
  constructor
  · intro h
    exact ⟨by simpa using congrArg opClass h, by simpa using congrArg fieldX h, by simpa using congrArg fieldY h,
      by simpa using congrArg fieldN h⟩
  · rintro ⟨rfl, rfl, rfl, rfl⟩
    rfl

theorem toNat_opClass (op : Opcode) : (opClass op).toNat = op.toNat / 4096 := by
  have := op.isLt
  simp [opClass, BitVec.extractLsb'_toNat, Nat.shiftRight_eq_div_pow]
  omega

theorem toNat_fieldNN (op : Opcode) : (fieldNN op).toNat = op.toNat % 256 := by simp [fieldNN, BitVec.extractLsb'_toNat]

theorem toNat_fieldN (op : Opcode) : (fieldN op).toNat = op.toNat % 16 := by simp [fieldN, BitVec.extractLsb'_toNat]

/-! ### Bytes and words (R43) -/

/-- A word is put together again from the two bytes memory holds. -/
theorem assembleWord_bytes (op : Opcode) : assembleWord (op.extractLsb' 8 8) (op.extractLsb' 0 8) = op := by
  apply BitVec.eq_of_getLsbD_eq
  intro j hj
  simp only [assembleWord, BitVec.getLsbD_extractLsb', BitVec.getLsbD_append]
  by_cases h : j < 8
  · simp [h]
  · have h1 : j - 8 < 8 := by omega
    have h2 : 8 + (j - 8) = j := by omega
    simp [h, h1, h2]

end Sys2Proof
end

