-- ==== Sys2Proof/Laws/Memory.lean ====
section
/-! SUPPORT. The laws of memory: read after write, the canonical form, and the block operations. -/

namespace Sys2Proof.Machine

/-! ### Read after write (R41, R42) -/

theorem lookup_erase_self (a : Nat) (m : List Host.Cell) : Memory.lookup (Memory.erase a m) a = Memory.unlisted a := by
  induction m with
  | nil => rfl
  | cons c m ih =>
    obtain ⟨b, w⟩ := c
    by_cases h : b = a
    · simp [Memory.erase, h, ih]
    · simp [Memory.erase, h, Memory.lookup, Ne.symm h, ih]

theorem ne_of_mem_erase {a : Nat} {c : Host.Cell} : ∀ {m : List Host.Cell}, c ∈ Memory.erase a m → c.1 ≠ a
  | [], h => by cases h
  | (b, w) :: rest, h => by
    by_cases hb : b = a
    · simp only [Memory.erase, hb, if_true] at h; exact ne_of_mem_erase h
    · simp only [Memory.erase, hb, if_false, List.mem_cons] at h
      rcases h with rfl | h
      · exact hb
      · exact ne_of_mem_erase h

theorem lookup_erase_ne {a b : Nat} (h : b ≠ a) (m : List Host.Cell) :
    Memory.lookup (Memory.erase a m) b = Memory.lookup m b := by
  induction m with
  | nil => rfl
  | cons c m ih =>
    obtain ⟨d, w⟩ := c
    by_cases hd : d = a
    · subst hd; simp [Memory.erase, Memory.lookup, h, ih]
    · simp [Memory.erase, hd, Memory.lookup, ih]

theorem lookup_insert_ne {a b : Nat} (h : b ≠ a) (v : Byte) (m : List Host.Cell) :
    Memory.lookup (Memory.insert a v m) b = Memory.lookup m b := by
  induction m with
  | nil => simp [Memory.insert, Memory.lookup, h]
  | cons c m ih =>
    obtain ⟨d, w⟩ := c
    simp only [Memory.insert]
    split <;> simp [Memory.lookup, h, ih]

theorem lookup_insert_self (a : Nat) (v : Byte) (m : List Host.Cell) (h : ∀ c ∈ m, c.1 ≠ a) :
    Memory.lookup (Memory.insert a v m) a = some v := by
  induction m with
  | nil => simp [Memory.insert, Memory.lookup]
  | cons c m ih =>
    obtain ⟨d, w⟩ := c
    have hd : d ≠ a := h (d, w) (by simp)
    simp only [Memory.insert]
    split
    · simp [Memory.lookup]
    · simp [Memory.lookup, Ne.symm hd, ih (fun c hc => h c (by simp [hc]))]

/-- What is known of an address after a write: the byte written there, everything else as before. -/
theorem lookup_set (a b : Nat) (v : Byte) (m : List Host.Cell) :
    Memory.lookup (Memory.set a v m) b = if b = a then some v else Memory.lookup m b := by
  unfold Memory.set
  by_cases h : b = a
  · subst h
    split
    · next hu => simp [lookup_erase_self, hu]
    · simp [lookup_insert_self b v _ fun c hc => ne_of_mem_erase hc]
  · split <;> simp [h, lookup_erase_ne, lookup_insert_ne]

/-- A byte reads what was last written there, and every other byte as before. -/
theorem byteAt_set (a b : Nat) (v : Byte) (m : List Host.Cell) :
    Memory.byteAt (Memory.set a v m) b = if b = a then v else Memory.byteAt m b := by
  unfold Memory.byteAt
  rw [lookup_set]
  by_cases h : b = a <;> simp [h]

/-! ### The canonical form -/

theorem wfFrom_le {lo lo' : Nat} (h : lo' ≤ lo) : ∀ {m : List Host.Cell}, Memory.wfFrom lo m → Memory.wfFrom lo' m
  | [], _ => rfl
  | (a, v) :: rest, hm => by
    simp only [Memory.wfFrom, Bool.and_eq_true, decide_eq_true_eq] at hm ⊢
    exact ⟨⟨⟨by omega, hm.1.1.2⟩, hm.1.2⟩, hm.2⟩

theorem wfFrom_erase (a : Nat) : ∀ {lo : Nat} {m : List Host.Cell}, Memory.wfFrom lo m → Memory.wfFrom lo (Memory.erase a m)
  | _, [], _ => rfl
  | lo, (b, w) :: rest, hm => by
    simp only [Memory.wfFrom, Bool.and_eq_true, decide_eq_true_eq] at hm
    have ih := wfFrom_erase a hm.2
    by_cases h : b = a
    · have e : Memory.erase a ((b, w) :: rest) = Memory.erase a rest := by simp [Memory.erase, h]
      rw [e]; exact wfFrom_le (by omega) ih
    · have e : Memory.erase a ((b, w) :: rest) = (b, w) :: Memory.erase a rest := by simp [Memory.erase, h]
      rw [e]; simp [Memory.wfFrom, hm.1.1.1, hm.1.1.2, hm.1.2, ih]

theorem wfFrom_insert {a : Nat} {v : Byte} (ha : a < 4096) (hv : Memory.unlisted a ≠ some v) :
    ∀ {lo : Nat} {m : List Host.Cell}, lo ≤ a → (∀ c ∈ m, c.1 ≠ a) → Memory.wfFrom lo m → Memory.wfFrom lo (Memory.insert a v m)
  | lo, [], hlo, _, _ => by simp [Memory.insert, Memory.wfFrom, hlo, ha, hv]
  | lo, (b, w) :: rest, hlo, hne, hm => by
    simp only [Memory.wfFrom, Bool.and_eq_true, decide_eq_true_eq] at hm
    have hb : b ≠ a := hne (b, w) (by simp)
    simp only [Memory.insert]
    split
    · next h => simp [Memory.wfFrom, hlo, ha, hv, hm.1.1.2, hm.1.2, hm.2]; omega
    · next h =>
      have ih := wfFrom_insert ha hv (lo := b + 1) (by omega) (fun c hc => hne c (by simp [hc])) hm.2
      simp [Memory.wfFrom, hm.1.1.1, hm.1.1.2, hm.1.2, ih]

/-- A write to an address of memory keeps the canonical form. -/
theorem wf_set {a : Nat} (v : Byte) {m : List Host.Cell} (ha : a < 4096) (hm : Memory.wf m) :
    Memory.wf (Memory.set a v m) := by
  unfold Memory.set Memory.wf at *
  split
  · exact wfFrom_erase a hm
  · next h => exact wfFrom_insert ha h (Nat.zero_le a) (fun c hc => ne_of_mem_erase hc) (wfFrom_erase a hm)

/-- Nothing below `lo` is listed in a list that is canonical from `lo` up. -/
theorem lookup_of_lt : ∀ {lo : Nat} {m : List Host.Cell}, Memory.wfFrom lo m → ∀ {a : Nat}, a < lo → Memory.lookup m a = Memory.unlisted a
  | _, [], _, _, _ => rfl
  | lo, (b, w) :: rest, hm, a, ha => by
    simp only [Memory.wfFrom, Bool.and_eq_true, decide_eq_true_eq] at hm
    have : a ≠ b := by omega
    simp only [Memory.lookup, this, if_false]
    exact lookup_of_lt hm.2 (by omega)

theorem eq_of_lookup_from : ∀ {lo : Nat} {m m' : List Host.Cell}, Memory.wfFrom lo m → Memory.wfFrom lo m' →
    (∀ a, Memory.lookup m a = Memory.lookup m' a) → m = m'
  | _, [], [], _, _, _ => rfl
  | lo, [], (b, w) :: rest, _, hm', h => by
    simp only [Memory.wfFrom, Bool.and_eq_true, decide_eq_true_eq] at hm'
    have := h b
    simp [Memory.lookup] at this
    exact absurd this hm'.1.2
  | lo, (b, w) :: rest, [], hm, _, h => by
    simp only [Memory.wfFrom, Bool.and_eq_true, decide_eq_true_eq] at hm
    have := h b
    simp [Memory.lookup] at this
    exact absurd this.symm hm.1.2
  | lo, (b, w) :: rest, (b', w') :: rest', hm, hm', h => by
    simp only [Memory.wfFrom, Bool.and_eq_true, decide_eq_true_eq] at hm hm'
    have hbb : b = b' := by
      rcases Nat.lt_trichotomy b b' with hlt | heq | hgt
      · exfalso
        have h1 := h b
        have : b ≠ b' := by omega
        simp only [Memory.lookup, this, if_true, if_false] at h1
        rw [lookup_of_lt hm'.2 (by omega)] at h1
        exact hm.1.2 h1.symm
      · exact heq
      · exfalso
        have h1 := h b'
        have : b' ≠ b := by omega
        simp only [Memory.lookup, this, if_true, if_false] at h1
        rw [lookup_of_lt hm.2 (by omega)] at h1
        exact hm'.1.2 h1
    subst hbb
    have hw : w = w' := by have := h b; simpa [Memory.lookup] using this
    subst hw
    have : rest = rest' := by
      refine eq_of_lookup_from hm.2 hm'.2 fun a => ?_
      by_cases ha : a < b + 1
      · rw [lookup_of_lt hm.2 ha, lookup_of_lt hm'.2 ha]
      · have hne : a ≠ b := by omega
        have := h a
        simpa [Memory.lookup, hne] using this
    rw [this]

/-- Equal memories are equal data: two canonical lists of which the same is known at every address are the same list. -/
theorem eq_of_lookup {m m' : List Host.Cell} (hm : Memory.wf m) (hm' : Memory.wf m')
    (h : ∀ a, Memory.lookup m a = Memory.lookup m' a) : m = m' := eq_of_lookup_from hm hm' h

/-! ### Blocks (R50, R52) -/

/-- A block read fails exactly when it touches an address outside memory. -/
theorem readBlock_eq_none {m : List Host.Cell} : ∀ {n a : Nat}, Memory.readBlock m a n = none ↔ n ≠ 0 ∧ 4096 < a + n
  | 0, a => by simp [Memory.readBlock]
  | n + 1, a => by
    have ih := readBlock_eq_none (m := m) (n := n) (a := a + 1)
    simp only [Memory.readBlock, Memory.readByte]
    by_cases h : a < 4096
    · simp only [h, if_true]
      rcases hb : Memory.readBlock m (a + 1) n with _ | bs
      · have := ih.1 hb; simp; omega
      · have : ¬ (n ≠ 0 ∧ 4096 < a + 1 + n) := fun hc => by rw [ih.2 hc] at hb; cases hb
        simp; omega
    · simp [h]; omega

/-- A block read inside memory gives the bytes there, lowest address first. -/
theorem readBlock_eq_some {m : List Host.Cell} : ∀ {n a : Nat} {bs : List Byte},
    Memory.readBlock m a n = some bs → bs.length = n ∧ ∀ k (h : k < bs.length), bs[k] = Memory.byteAt m (a + k)
  | 0, a, bs, h => by
    simp [Memory.readBlock] at h; subst h; simp
  | n + 1, a, bs, h => by
    simp only [Memory.readBlock, Memory.readByte] at h
    by_cases ha : a < 4096
    · simp only [ha, if_true] at h
      rcases hb : Memory.readBlock m (a + 1) n with _ | rest
      · simp [hb] at h
      · simp only [hb, Option.some.injEq] at h
        subst h
        obtain ⟨hl, hr⟩ := readBlock_eq_some hb
        refine ⟨by simp [hl], fun k hk => ?_⟩
        cases k with
        | zero => simp
        | succ k =>
          have := hr k (by simpa using hk)
          simp only [List.getElem_cons_succ, this]
          congr 1; omega
    · simp [ha] at h

/-- A block inside memory can be read. -/
theorem readBlock_isSome {m : List Host.Cell} {n a : Nat} (h : n = 0 ∨ a + n ≤ 4096) :
    ∃ bs, Memory.readBlock m a n = some bs := by
  rcases hb : Memory.readBlock m a n with _ | bs
  · have := readBlock_eq_none.1 hb; omega
  · exact ⟨bs, rfl⟩

/-- A block write fails exactly when it touches an address outside memory. -/
theorem writeBlock_eq_none : ∀ {bs : List Byte} {m : List Host.Cell} {a : Nat},
    Memory.writeBlock m a bs = none ↔ bs ≠ [] ∧ 4096 < a + bs.length
  | [], m, a => by simp [Memory.writeBlock]
  | b :: bs, m, a => by
    simp only [Memory.writeBlock, Memory.writeByte]
    by_cases h : a < 4096
    · simp only [h, if_true, writeBlock_eq_none, ne_eq, reduceCtorEq, not_false_eq_true, true_and, List.length_cons]
      cases bs with
      | nil => simp; omega
      | cons c bs => simp; omega
    · simp [h]; omega

/-- After a block write every byte of the block reads as written and every other byte as before. -/
theorem byteAt_writeBlock : ∀ {bs : List Byte} {m m' : List Host.Cell} {a : Nat}, Memory.writeBlock m a bs = some m' →
    ∀ b, Memory.byteAt m' b = if h : a ≤ b ∧ b - a < bs.length then bs[b - a]'h.2 else Memory.byteAt m b
  | [], m, m', a, h, b => by
    simp [Memory.writeBlock] at h; subst h; simp
  | v :: vs, m, m', a, h, b => by
    simp only [Memory.writeBlock, Memory.writeByte] at h
    by_cases ha : a < 4096
    · simp only [ha, if_true] at h
      rw [byteAt_writeBlock h, byteAt_set]
      rcases Nat.lt_trichotomy b a with hb | hb | hb
      · have h1 : ¬ (a + 1 ≤ b) := by omega
        have h2 : ¬ (a ≤ b) := by omega
        have h3 : b ≠ a := by omega
        simp [h1, h2, h3]
      · subst hb
        simp
      · have h1 : a + 1 ≤ b := by omega
        have h2 : a ≤ b := by omega
        have h3 : b ≠ a := by omega
        have e : b - a = (b - (a + 1)) + 1 := by omega
        simp only [h1, h2, h3, true_and, List.length_cons, if_false]
        by_cases hlt : b - (a + 1) < vs.length
        · rw [dif_pos hlt, dif_pos (by omega)]
          simp only [e, List.getElem_cons_succ]
        · rw [dif_neg hlt, dif_neg (by omega)]
    · simp [ha] at h

/-- A block inside memory can be written. -/
theorem writeBlock_isSome {m : List Host.Cell} {bs : List Byte} {a : Nat} (h : a + bs.length ≤ 4096) :
    ∃ m', Memory.writeBlock m a bs = some m' := by
  rcases hb : Memory.writeBlock m a bs with _ | m'
  · have := writeBlock_eq_none.1 hb; omega
  · exact ⟨m', rfl⟩

/-- A block write keeps the canonical form. -/
theorem wf_writeBlock : ∀ {bs : List Byte} {m m' : List Host.Cell} {a : Nat}, Memory.wf m → Memory.writeBlock m a bs = some m' → Memory.wf m'
  | [], m, m', a, hm, h => by simp [Memory.writeBlock] at h; subst h; exact hm
  | v :: vs, m, m', a, hm, h => by
    simp only [Memory.writeBlock, Memory.writeByte] at h
    by_cases ha : a < 4096
    · simp only [ha, if_true] at h
      exact wf_writeBlock (wf_set v ha hm) h
    · simp [ha] at h

end Sys2Proof.Machine
end

