-- ==== Sys2Proof/Laws/State.lean ====
section
/-! SUPPORT. What each named update does to each field of the state, so that no proof unfolds a record update. -/

namespace Sys2Proof.Machine

variable (s : State)

/-! ### `setV` -/

@[simp] theorem State.setV_v (x : Reg) (b : Byte) : (s.setV x b).v = s.v.set x.toNat b := rfl
@[simp] theorem State.setV_i (x : Reg) (b : Byte) : (s.setV x b).i = s.i := rfl
@[simp] theorem State.setV_pc (x : Reg) (b : Byte) : (s.setV x b).pc = s.pc := rfl
@[simp] theorem State.setV_stack (x : Reg) (b : Byte) : (s.setV x b).stack = s.stack := rfl
@[simp] theorem State.setV_sp (x : Reg) (b : Byte) : (s.setV x b).sp = s.sp := rfl
@[simp] theorem State.setV_dt (x : Reg) (b : Byte) : (s.setV x b).dt = s.dt := rfl
@[simp] theorem State.setV_st (x : Reg) (b : Byte) : (s.setV x b).st = s.st := rfl
@[simp] theorem State.setV_mem (x : Reg) (b : Byte) : (s.setV x b).mem = s.mem := rfl
@[simp] theorem State.setV_fb (x : Reg) (b : Byte) : (s.setV x b).fb = s.fb := rfl
@[simp] theorem State.setV_dirty (x : Reg) (b : Byte) : (s.setV x b).dirty = s.dirty := rfl
@[simp] theorem State.setV_halted (x : Reg) (b : Byte) : (s.setV x b).halted = s.halted := rfl
@[simp] theorem State.setV_err (x : Reg) (b : Byte) : (s.setV x b).err = s.err := rfl
@[simp] theorem State.setV_report (x : Reg) (b : Byte) : (s.setV x b).report = s.report := rfl
@[simp] theorem State.setV_keyIndex (x : Reg) (b : Byte) : (s.setV x b).keyIndex = s.keyIndex := rfl
@[simp] theorem State.setV_randIndex (x : Reg) (b : Byte) : (s.setV x b).randIndex = s.randIndex := rfl

/-! ### `advance` -/

@[simp] theorem State.advance_v : (s.advance).v = s.v := rfl
@[simp] theorem State.advance_i : (s.advance).i = s.i := rfl
@[simp] theorem State.advance_pc : (s.advance).pc = s.pc + 2#16 := rfl
@[simp] theorem State.advance_stack : (s.advance).stack = s.stack := rfl
@[simp] theorem State.advance_sp : (s.advance).sp = s.sp := rfl
@[simp] theorem State.advance_dt : (s.advance).dt = s.dt := rfl
@[simp] theorem State.advance_st : (s.advance).st = s.st := rfl
@[simp] theorem State.advance_mem : (s.advance).mem = s.mem := rfl
@[simp] theorem State.advance_fb : (s.advance).fb = s.fb := rfl
@[simp] theorem State.advance_dirty : (s.advance).dirty = s.dirty := rfl
@[simp] theorem State.advance_halted : (s.advance).halted = s.halted := rfl
@[simp] theorem State.advance_err : (s.advance).err = s.err := rfl
@[simp] theorem State.advance_report : (s.advance).report = s.report := rfl
@[simp] theorem State.advance_keyIndex : (s.advance).keyIndex = s.keyIndex := rfl
@[simp] theorem State.advance_randIndex : (s.advance).randIndex = s.randIndex := rfl

/-! ### `skipIf` -/

@[simp] theorem State.skipIf_v (c : Bool) : (s.skipIf c).v = s.v := rfl
@[simp] theorem State.skipIf_i (c : Bool) : (s.skipIf c).i = s.i := rfl
@[simp] theorem State.skipIf_pc (c : Bool) : (s.skipIf c).pc = s.pc + if c then 4#16 else 2#16 := rfl
@[simp] theorem State.skipIf_stack (c : Bool) : (s.skipIf c).stack = s.stack := rfl
@[simp] theorem State.skipIf_sp (c : Bool) : (s.skipIf c).sp = s.sp := rfl
@[simp] theorem State.skipIf_dt (c : Bool) : (s.skipIf c).dt = s.dt := rfl
@[simp] theorem State.skipIf_st (c : Bool) : (s.skipIf c).st = s.st := rfl
@[simp] theorem State.skipIf_mem (c : Bool) : (s.skipIf c).mem = s.mem := rfl
@[simp] theorem State.skipIf_fb (c : Bool) : (s.skipIf c).fb = s.fb := rfl
@[simp] theorem State.skipIf_dirty (c : Bool) : (s.skipIf c).dirty = s.dirty := rfl
@[simp] theorem State.skipIf_halted (c : Bool) : (s.skipIf c).halted = s.halted := rfl
@[simp] theorem State.skipIf_err (c : Bool) : (s.skipIf c).err = s.err := rfl
@[simp] theorem State.skipIf_report (c : Bool) : (s.skipIf c).report = s.report := rfl
@[simp] theorem State.skipIf_keyIndex (c : Bool) : (s.skipIf c).keyIndex = s.keyIndex := rfl
@[simp] theorem State.skipIf_randIndex (c : Bool) : (s.skipIf c).randIndex = s.randIndex := rfl

/-! ### `jump` -/

@[simp] theorem State.jump_v (a : Addr) : (s.jump a).v = s.v := rfl
@[simp] theorem State.jump_i (a : Addr) : (s.jump a).i = s.i := rfl
@[simp] theorem State.jump_pc (a : Addr) : (s.jump a).pc = a := rfl
@[simp] theorem State.jump_stack (a : Addr) : (s.jump a).stack = s.stack := rfl
@[simp] theorem State.jump_sp (a : Addr) : (s.jump a).sp = s.sp := rfl
@[simp] theorem State.jump_dt (a : Addr) : (s.jump a).dt = s.dt := rfl
@[simp] theorem State.jump_st (a : Addr) : (s.jump a).st = s.st := rfl
@[simp] theorem State.jump_mem (a : Addr) : (s.jump a).mem = s.mem := rfl
@[simp] theorem State.jump_fb (a : Addr) : (s.jump a).fb = s.fb := rfl
@[simp] theorem State.jump_dirty (a : Addr) : (s.jump a).dirty = s.dirty := rfl
@[simp] theorem State.jump_halted (a : Addr) : (s.jump a).halted = s.halted := rfl
@[simp] theorem State.jump_err (a : Addr) : (s.jump a).err = s.err := rfl
@[simp] theorem State.jump_report (a : Addr) : (s.jump a).report = s.report := rfl
@[simp] theorem State.jump_keyIndex (a : Addr) : (s.jump a).keyIndex = s.keyIndex := rfl
@[simp] theorem State.jump_randIndex (a : Addr) : (s.jump a).randIndex = s.randIndex := rfl

/-! ### `setIndex` -/

@[simp] theorem State.setIndex_v (a : Addr) : (s.setIndex a).v = s.v := rfl
@[simp] theorem State.setIndex_i (a : Addr) : (s.setIndex a).i = a := rfl
@[simp] theorem State.setIndex_pc (a : Addr) : (s.setIndex a).pc = s.pc + 2#16 := rfl
@[simp] theorem State.setIndex_stack (a : Addr) : (s.setIndex a).stack = s.stack := rfl
@[simp] theorem State.setIndex_sp (a : Addr) : (s.setIndex a).sp = s.sp := rfl
@[simp] theorem State.setIndex_dt (a : Addr) : (s.setIndex a).dt = s.dt := rfl
@[simp] theorem State.setIndex_st (a : Addr) : (s.setIndex a).st = s.st := rfl
@[simp] theorem State.setIndex_mem (a : Addr) : (s.setIndex a).mem = s.mem := rfl
@[simp] theorem State.setIndex_fb (a : Addr) : (s.setIndex a).fb = s.fb := rfl
@[simp] theorem State.setIndex_dirty (a : Addr) : (s.setIndex a).dirty = s.dirty := rfl
@[simp] theorem State.setIndex_halted (a : Addr) : (s.setIndex a).halted = s.halted := rfl
@[simp] theorem State.setIndex_err (a : Addr) : (s.setIndex a).err = s.err := rfl
@[simp] theorem State.setIndex_report (a : Addr) : (s.setIndex a).report = s.report := rfl
@[simp] theorem State.setIndex_keyIndex (a : Addr) : (s.setIndex a).keyIndex = s.keyIndex := rfl
@[simp] theorem State.setIndex_randIndex (a : Addr) : (s.setIndex a).randIndex = s.randIndex := rfl

/-! ### `keysRead` -/

@[simp] theorem State.keysRead_v : (s.keysRead).v = s.v := rfl
@[simp] theorem State.keysRead_i : (s.keysRead).i = s.i := rfl
@[simp] theorem State.keysRead_pc : (s.keysRead).pc = s.pc := rfl
@[simp] theorem State.keysRead_stack : (s.keysRead).stack = s.stack := rfl
@[simp] theorem State.keysRead_sp : (s.keysRead).sp = s.sp := rfl
@[simp] theorem State.keysRead_dt : (s.keysRead).dt = s.dt := rfl
@[simp] theorem State.keysRead_st : (s.keysRead).st = s.st := rfl
@[simp] theorem State.keysRead_mem : (s.keysRead).mem = s.mem := rfl
@[simp] theorem State.keysRead_fb : (s.keysRead).fb = s.fb := rfl
@[simp] theorem State.keysRead_dirty : (s.keysRead).dirty = s.dirty := rfl
@[simp] theorem State.keysRead_halted : (s.keysRead).halted = s.halted := rfl
@[simp] theorem State.keysRead_err : (s.keysRead).err = s.err := rfl
@[simp] theorem State.keysRead_report : (s.keysRead).report = s.report := rfl
@[simp] theorem State.keysRead_keyIndex : (s.keysRead).keyIndex = s.keyIndex + 1 := rfl
@[simp] theorem State.keysRead_randIndex : (s.keysRead).randIndex = s.randIndex := rfl

/-! ### `randDrawn` -/

@[simp] theorem State.randDrawn_v : (s.randDrawn).v = s.v := rfl
@[simp] theorem State.randDrawn_i : (s.randDrawn).i = s.i := rfl
@[simp] theorem State.randDrawn_pc : (s.randDrawn).pc = s.pc := rfl
@[simp] theorem State.randDrawn_stack : (s.randDrawn).stack = s.stack := rfl
@[simp] theorem State.randDrawn_sp : (s.randDrawn).sp = s.sp := rfl
@[simp] theorem State.randDrawn_dt : (s.randDrawn).dt = s.dt := rfl
@[simp] theorem State.randDrawn_st : (s.randDrawn).st = s.st := rfl
@[simp] theorem State.randDrawn_mem : (s.randDrawn).mem = s.mem := rfl
@[simp] theorem State.randDrawn_fb : (s.randDrawn).fb = s.fb := rfl
@[simp] theorem State.randDrawn_dirty : (s.randDrawn).dirty = s.dirty := rfl
@[simp] theorem State.randDrawn_halted : (s.randDrawn).halted = s.halted := rfl
@[simp] theorem State.randDrawn_err : (s.randDrawn).err = s.err := rfl
@[simp] theorem State.randDrawn_report : (s.randDrawn).report = s.report := rfl
@[simp] theorem State.randDrawn_keyIndex : (s.randDrawn).keyIndex = s.keyIndex := rfl
@[simp] theorem State.randDrawn_randIndex : (s.randDrawn).randIndex = s.randIndex + 1 := rfl

/-! ### `clearReport` -/

@[simp] theorem State.clearReport_v : (s.clearReport).v = s.v := rfl
@[simp] theorem State.clearReport_i : (s.clearReport).i = s.i := rfl
@[simp] theorem State.clearReport_pc : (s.clearReport).pc = s.pc := rfl
@[simp] theorem State.clearReport_stack : (s.clearReport).stack = s.stack := rfl
@[simp] theorem State.clearReport_sp : (s.clearReport).sp = s.sp := rfl
@[simp] theorem State.clearReport_dt : (s.clearReport).dt = s.dt := rfl
@[simp] theorem State.clearReport_st : (s.clearReport).st = s.st := rfl
@[simp] theorem State.clearReport_mem : (s.clearReport).mem = s.mem := rfl
@[simp] theorem State.clearReport_fb : (s.clearReport).fb = s.fb := rfl
@[simp] theorem State.clearReport_dirty : (s.clearReport).dirty = s.dirty := rfl
@[simp] theorem State.clearReport_halted : (s.clearReport).halted = s.halted := rfl
@[simp] theorem State.clearReport_err : (s.clearReport).err = s.err := rfl
@[simp] theorem State.clearReport_report : (s.clearReport).report = none := rfl
@[simp] theorem State.clearReport_keyIndex : (s.clearReport).keyIndex = s.keyIndex := rfl
@[simp] theorem State.clearReport_randIndex : (s.clearReport).randIndex = s.randIndex := rfl

/-! ### `tick` -/

@[simp] theorem State.tick_v : (s.tick).v = s.v := rfl
@[simp] theorem State.tick_i : (s.tick).i = s.i := rfl
@[simp] theorem State.tick_pc : (s.tick).pc = s.pc := rfl
@[simp] theorem State.tick_stack : (s.tick).stack = s.stack := rfl
@[simp] theorem State.tick_sp : (s.tick).sp = s.sp := rfl
@[simp] theorem State.tick_dt : (s.tick).dt = tickTimer s.dt := rfl
@[simp] theorem State.tick_st : (s.tick).st = tickTimer s.st := rfl
@[simp] theorem State.tick_mem : (s.tick).mem = s.mem := rfl
@[simp] theorem State.tick_fb : (s.tick).fb = s.fb := rfl
@[simp] theorem State.tick_dirty : (s.tick).dirty = s.dirty := rfl
@[simp] theorem State.tick_halted : (s.tick).halted = s.halted := rfl
@[simp] theorem State.tick_err : (s.tick).err = s.err := rfl
@[simp] theorem State.tick_report : (s.tick).report = s.report := rfl
@[simp] theorem State.tick_keyIndex : (s.tick).keyIndex = s.keyIndex := rfl
@[simp] theorem State.tick_randIndex : (s.tick).randIndex = s.randIndex := rfl

/-! ### `present` -/

@[simp] theorem State.present_v : (s.present).v = s.v := rfl
@[simp] theorem State.present_i : (s.present).i = s.i := rfl
@[simp] theorem State.present_pc : (s.present).pc = s.pc := rfl
@[simp] theorem State.present_stack : (s.present).stack = s.stack := rfl
@[simp] theorem State.present_sp : (s.present).sp = s.sp := rfl
@[simp] theorem State.present_dt : (s.present).dt = s.dt := rfl
@[simp] theorem State.present_st : (s.present).st = s.st := rfl
@[simp] theorem State.present_mem : (s.present).mem = s.mem := rfl
@[simp] theorem State.present_fb : (s.present).fb = s.fb := rfl
@[simp] theorem State.present_dirty : (s.present).dirty = false := rfl
@[simp] theorem State.present_halted : (s.present).halted = s.halted := rfl
@[simp] theorem State.present_err : (s.present).err = s.err := rfl
@[simp] theorem State.present_report : (s.present).report = s.report := rfl
@[simp] theorem State.present_keyIndex : (s.present).keyIndex = s.keyIndex := rfl
@[simp] theorem State.present_randIndex : (s.present).randIndex = s.randIndex := rfl

/-! ### `construct` (R200) -/

@[simp] theorem State.construct_v : (s.construct).v = State.reset.v := rfl
@[simp] theorem State.construct_i : (s.construct).i = State.reset.i := rfl
@[simp] theorem State.construct_pc : (s.construct).pc = State.reset.pc := rfl
@[simp] theorem State.construct_stack : (s.construct).stack = State.reset.stack := rfl
@[simp] theorem State.construct_sp : (s.construct).sp = State.reset.sp := rfl
@[simp] theorem State.construct_dt : (s.construct).dt = State.reset.dt := rfl
@[simp] theorem State.construct_st : (s.construct).st = State.reset.st := rfl
@[simp] theorem State.construct_mem : (s.construct).mem = State.reset.mem := rfl
@[simp] theorem State.construct_fb : (s.construct).fb = State.reset.fb := rfl
@[simp] theorem State.construct_dirty : (s.construct).dirty = State.reset.dirty := rfl
@[simp] theorem State.construct_halted : (s.construct).halted = State.reset.halted := rfl
@[simp] theorem State.construct_err : (s.construct).err = State.reset.err := rfl
@[simp] theorem State.construct_report : (s.construct).report = State.reset.report := rfl
@[simp] theorem State.construct_keyIndex : (s.construct).keyIndex = s.keyIndex := rfl
@[simp] theorem State.construct_randIndex : (s.construct).randIndex = s.randIndex := rfl

/-! ### `raise` (R171 to R175, R177) -/

@[simp] theorem State.raise_v (c : Condition) (info : Nat) : (s.raise c info).v = s.v := by cases c <;> rfl
@[simp] theorem State.raise_i (c : Condition) (info : Nat) : (s.raise c info).i = s.i := by cases c <;> rfl
@[simp] theorem State.raise_pc (c : Condition) (info : Nat) : (s.raise c info).pc = if c.fatal then s.pc else s.pc + 2#16 := by
  cases c <;> simp [State.raise, Condition.fatal, State.advance]
@[simp] theorem State.raise_stack (c : Condition) (info : Nat) : (s.raise c info).stack = s.stack := by cases c <;> rfl
@[simp] theorem State.raise_sp (c : Condition) (info : Nat) : (s.raise c info).sp = s.sp := by cases c <;> rfl
@[simp] theorem State.raise_dt (c : Condition) (info : Nat) : (s.raise c info).dt = s.dt := by cases c <;> rfl
@[simp] theorem State.raise_st (c : Condition) (info : Nat) : (s.raise c info).st = s.st := by cases c <;> rfl
@[simp] theorem State.raise_mem (c : Condition) (info : Nat) : (s.raise c info).mem = s.mem := by cases c <;> rfl
@[simp] theorem State.raise_fb (c : Condition) (info : Nat) : (s.raise c info).fb = s.fb := by cases c <;> rfl
@[simp] theorem State.raise_dirty (c : Condition) (info : Nat) : (s.raise c info).dirty = s.dirty := by cases c <;> rfl
@[simp] theorem State.raise_halted (c : Condition) (info : Nat) : (s.raise c info).halted = (s.halted || c.fatal) := by
  cases c <;> simp [State.raise, Condition.fatal, State.advance]
@[simp] theorem State.raise_err (c : Condition) (info : Nat) : (s.raise c info).err = s.err ||| c.errBit := by cases c <;> rfl
@[simp] theorem State.raise_report (c : Condition) (info : Nat) : (s.raise c info).report = some ⟨c, s.pc, info⟩ := by cases c <;> rfl
@[simp] theorem State.raise_keyIndex (c : Condition) (info : Nat) : (s.raise c info).keyIndex = s.keyIndex := by cases c <;> rfl
@[simp] theorem State.raise_randIndex (c : Condition) (info : Nat) : (s.raise c info).randIndex = s.randIndex := by cases c <;> rfl

end Sys2Proof.Machine
end

