-- ==== Sys2Proof/Laws/Registers.lean ====
section
/-! SUPPORT. Reading a register after a register has been written, and the register block operations. -/

namespace Sys2Proof.Machine

variable (s : State)

@[simp] theorem getV_of_v_eq {s t : State} (h : t.v = s.v) (x : Reg) : t.getV x = s.getV x := by simp [State.getV, h]

/-- A register reads what was last written to it, and every other register as before. -/
theorem getV_setV (x y : Reg) (b : Byte) : (s.setV x b).getV y = if y = x then b else s.getV y := by
  simp only [State.getV, State.setV, Vector.getElem_set, BitVec.toNat_inj, eq_comm (a := x)]

@[simp] theorem getV_setV_self (x : Reg) (b : Byte) : (s.setV x b).getV x = b := by simp [getV_setV]

theorem getV_setV_ne {x y : Reg} (h : y ≠ x) (b : Byte) : (s.setV x b).getV y = s.getV y := by simp [getV_setV, h]

@[simp] theorem getV_advance (x : Reg) : s.advance.getV x = s.getV x := rfl
@[simp] theorem getV_skipIf (c : Bool) (x : Reg) : (s.skipIf c).getV x = s.getV x := rfl
@[simp] theorem getV_jump (a : Addr) (x : Reg) : (s.jump a).getV x = s.getV x := rfl
@[simp] theorem getV_setIndex (a : Addr) (x : Reg) : (s.setIndex a).getV x = s.getV x := rfl
@[simp] theorem getV_keysRead (x : Reg) : s.keysRead.getV x = s.getV x := rfl
@[simp] theorem getV_randDrawn (x : Reg) : s.randDrawn.getV x = s.getV x := rfl
@[simp] theorem getV_clearReport (x : Reg) : s.clearReport.getV x = s.getV x := rfl
@[simp] theorem getV_raise (c : Condition) (info : Nat) (x : Reg) : (s.raise c info).getV x = s.getV x := by
  simp [State.getV]

/-- Two register files that read alike in every register are equal. -/
theorem v_ext {s t : State} (h : ∀ x : Reg, t.getV x = s.getV x) : t.v = s.v := by
  apply Vector.ext
  intro k hk
  have := h (BitVec.ofNat 4 k)
  simpa [State.getV, Nat.mod_eq_of_lt hk] using this

/-- The block of bytes written from register `k` on, register by register. -/
theorem getElem_setRegBlock (bs : List Byte) :
    ∀ (v : Vector Byte 16) (k j : Nat) (hj : j < 16),
      (setRegBlock v k bs)[j] = if h : k ≤ j ∧ j - k < bs.length then bs[j - k]'h.2 else v[j] := by
  induction bs with
  | nil => intro v k j hj; simp [setRegBlock]
  | cons b bs ih =>
    intro v k j hj
    rw [setRegBlock, ih]
    rcases Nat.lt_trichotomy j k with h | h | h
    · have h1 : ¬ (k + 1 ≤ j) := by omega
      have h2 : ¬ (k ≤ j) := by omega
      simp only [h1, h2, false_and, dif_neg, not_false_eq_true]
      rw [Vector.getElem_setIfInBounds]; simp; omega
    · subst h
      have h1 : ¬ (j + 1 ≤ j) := by omega
      simp
    · have h1 : k + 1 ≤ j := by omega
      have h2 : k ≤ j := by omega
      have e : j - k = (j - (k + 1)) + 1 := by omega
      simp only [h1, h2, true_and, List.length_cons]
      by_cases hlt : j - (k + 1) < bs.length
      · rw [dif_pos hlt, dif_pos (by omega)]
        simp only [e, List.getElem_cons_succ]
      · rw [dif_neg hlt, dif_neg (by omega)]
        rw [Vector.getElem_setIfInBounds]; simp; omega

/-- The register block of `LD [I], Vx` has `x + 1` bytes. -/
@[simp] theorem length_regBlock (x : Reg) : (s.regBlock x).length = x.toNat + 1 := by
  have := x.isLt
  simp [State.regBlock]; omega

/-- Byte `k` of the register block is `V[k]`. -/
theorem getElem_regBlock (x : Reg) (k : Nat) (h : k < (s.regBlock x).length) :
    (s.regBlock x)[k] = s.getV (BitVec.ofNat 4 k) := by
  have hx := x.isLt
  have hk : k < 16 := by simp at h; omega
  simp [State.regBlock, State.getV, Nat.mod_eq_of_lt hk]

@[simp] theorem length_decimalDigits (b : Byte) : (decimalDigits b).length = 3 := rfl

end Sys2Proof.Machine
end

