-- ==== Sys2Proof/Laws/Screen.lean ====
section
/-! SUPPORT. Pixels after a write, and what `drawSprite` does to every pixel and to the collision result. -/

namespace Sys2Proof.Machine

/-- A pixel reads what was last written to its cell, and every other pixel as before. -/
theorem getPixel_setPixel (fb : Grid) (x y px py : Nat) (v : Bool) :
    getPixel (setPixel fb x y v) px py = if px % 64 = x % 64 ∧ py % 32 = y % 32 then v else getPixel fb px py := by
  unfold getPixel setPixel
  rw [Vector.getElem_set]
  by_cases hy : y % 32 = py % 32
  · simp only [hy, if_true]
    rw [Vector.getElem_set]
    by_cases hx : x % 64 = px % 64 <;> simp [hx, eq_comm]
  · simp [hy, eq_comm]

/-- Two grids that read alike at every pixel are equal. -/
theorem grid_ext {f g : Grid} (h : ∀ x y, getPixel f x y = getPixel g x y) : f = g := by
  apply Vector.ext
  intro y hy
  apply Vector.ext
  intro x hx
  have := h x y
  simpa [getPixel, Nat.mod_eq_of_lt hx, Nat.mod_eq_of_lt hy] using this

/-- A pixel is the same wherever its coordinates are taken around the grid. -/
theorem getPixel_mod (fb : Grid) (x y : Nat) : getPixel fb (x % 64) (y % 32) = getPixel fb x y := by simp [getPixel]

theorem getPixel_congr (fb : Grid) {x y x' y' : Nat} (hx : x % 64 = x' % 64) (hy : y % 32 = y' % 32) :
    getPixel fb x y = getPixel fb x' y' := by
  rw [← getPixel_mod fb x y, ← getPixel_mod fb x' y', hx, hy]

@[simp] theorem getPixel_clearGrid (x y : Nat) : getPixel clearGrid x y = false := by simp [getPixel, clearGrid]

/-! ### One pixel of a draw -/

theorem getPixel_plot (acc : Grid × Bool) (x y px py : Nat) (bit : Bool) :
    getPixel (plot acc x y bit).1 px py = (getPixel acc.1 px py ^^ (bit && decide (px % 64 = x % 64 ∧ py % 32 = y % 32))) := by
  simp only [plot, getPixel_setPixel]
  by_cases h : px % 64 = x % 64 ∧ py % 32 = y % 32
  · rw [getPixel_congr acc.1 h.1.symm h.2.symm]; simp [h]
  · simp [h]

theorem collision_plot (acc : Grid × Bool) (x y : Nat) (bit : Bool) :
    (plot acc x y bit).2 = (acc.2 || (getPixel acc.1 x y && bit)) := by
  simp only [plot]
  cases getPixel acc.1 x y <;> cases bit <;> simp

/-! ### One row of a draw -/

theorem getPixel_drawRow (acc : Grid × Bool) (x0 y px py : Nat) (b : Byte) :
    getPixel (drawRow acc x0 y b).1 px py = (getPixel acc.1 px py ^^
      (decide (py % 32 = y % 32) && decide ((px + (64 - x0 % 64)) % 64 < 8) && b.getLsbD (7 - (px + (64 - x0 % 64)) % 64))) := by
  have key : ∀ k < 8, decide (px % 64 = (x0 + k) % 64 ∧ py % 32 = y % 32) =
      (decide ((px + (64 - x0 % 64)) % 64 = k) && decide (py % 32 = y % 32)) := by
    intro k hk
    rw [Bool.decide_and]
    congr 1
    apply decide_eq_decide.2
    omega
  have hr : List.range 8 = [0, 1, 2, 3, 4, 5, 6, 7] := rfl
  simp only [drawRow, hr, List.foldl_cons, List.foldl_nil, getPixel_plot]
  rw [key 0 (by decide), key 1 (by decide), key 2 (by decide), key 3 (by decide), key 4 (by decide), key 5 (by decide),
    key 6 (by decide), key 7 (by decide)]
  generalize (px + (64 - x0 % 64)) % 64 = c
  by_cases hc : c < 8
  · interval_cases c <;> simp [Bool.and_comm]
  · have : ∀ k < 8, c ≠ k := by omega
    simp [hc, this 0, this 1, this 2, this 3, this 4, this 5, this 6, this 7]

theorem collision_drawRow (acc : Grid × Bool) (x0 y : Nat) (b : Byte) :
    (drawRow acc x0 y b).2 = true ↔
      acc.2 = true ∨ ∃ c < 8, getPixel acc.1 (x0 + c) y = true ∧ b.getLsbD (7 - c) = true := by
  have hr : List.range 8 = [0, 1, 2, 3, 4, 5, 6, 7] := rfl
  have key : ∀ j k : Nat, j < 8 → k < 8 → j ≠ k → decide ((x0 + j) % 64 = (x0 + k) % 64) = false := by
    intro j k hj hk hne; apply decide_eq_false; omega
  simp only [drawRow, hr, List.foldl_cons, List.foldl_nil, collision_plot, getPixel_plot, and_true]
  simp (disch := decide) only [key, Bool.and_false, Bool.xor_false, Bool.or_eq_true, Bool.and_eq_true]
  constructor
  · rintro ((((((((h | h) | h) | h) | h) | h) | h) | h) | h)
    · exact Or.inl h
    · exact Or.inr ⟨0, by decide, h⟩
    · exact Or.inr ⟨1, by decide, h⟩
    · exact Or.inr ⟨2, by decide, h⟩
    · exact Or.inr ⟨3, by decide, h⟩
    · exact Or.inr ⟨4, by decide, h⟩
    · exact Or.inr ⟨5, by decide, h⟩
    · exact Or.inr ⟨6, by decide, h⟩
    · exact Or.inr ⟨7, by decide, h⟩
  · rintro (h | ⟨c, hc, h⟩)
    · simp only [h, true_or]
    · interval_cases c <;> simp only [h, true_or, or_true, and_self]

/-! ### The whole sprite -/

theorem getPixel_drawRows : ∀ (rows : List Byte) (acc : Grid × Bool) (x0 y0 px py : Nat), rows.length ≤ 32 →
    getPixel (drawRows acc x0 y0 rows).1 px py =
      (getPixel acc.1 px py ^^ spriteBit (fun r => rows.getD r 0#8) rows.length x0 y0 px py)
  | [], acc, x0, y0, px, py, _ => by simp [drawRows, spriteBit]
  | b :: bs, acc, x0, y0, px, py, h => by
    simp only [List.length_cons] at h
    rw [drawRows, getPixel_drawRows bs _ x0 (y0 + 1) px py (by omega), getPixel_drawRow, Bool.xor_assoc]
    congr 1
    simp only [spriteBit, List.length_cons]
    generalize hc : (px + (64 - x0 % 64)) % 64 = c
    by_cases h0 : py % 32 = y0 % 32
    · have e : (py + (32 - y0 % 32)) % 32 = 0 := by omega
      have e' : ¬ (py + (32 - (y0 + 1) % 32)) % 32 < bs.length := by omega
      simp [h0, e, e']
    · have e : (py + (32 - y0 % 32)) % 32 = (py + (32 - (y0 + 1) % 32)) % 32 + 1 := by omega
      simp [h0, e]

theorem collision_drawRows : ∀ (rows : List Byte) (acc : Grid × Bool) (x0 y0 : Nat), rows.length ≤ 32 →
    ((drawRows acc x0 y0 rows).2 = true ↔
      acc.2 = true ∨ ∃ r < rows.length, ∃ c < 8,
        getPixel acc.1 (x0 + c) (y0 + r) = true ∧ (rows.getD r 0#8).getLsbD (7 - c) = true)
  | [], acc, x0, y0, _ => by simp [drawRows]
  | b :: bs, acc, x0, y0, h => by
    simp only [List.length_cons] at h
    rw [drawRows, collision_drawRows bs _ x0 (y0 + 1) (by omega), collision_drawRow]
    have hpix : ∀ r < bs.length, ∀ c, getPixel (drawRow acc x0 y0 b).1 (x0 + c) (y0 + 1 + r) = getPixel acc.1 (x0 + c) (y0 + 1 + r) := by
      intro r hr c
      rw [getPixel_drawRow]
      have : ¬ ((y0 + 1 + r) % 32 = y0 % 32) := by omega
      simp [this]
    constructor
    · rintro ((h1 | ⟨c, hc, h1, h2⟩) | ⟨r, hr, c, hc, h1, h2⟩)
      · exact Or.inl h1
      · exact Or.inr ⟨0, by simp, c, hc, h1, h2⟩
      · refine Or.inr ⟨r + 1, by simpa using hr, c, hc, ?_, by simpa using h2⟩
        rw [hpix r hr] at h1
        rw [← h1]; congr 1; omega
    · rintro (h1 | ⟨r, hr, c, hc, h1, h2⟩)
      · exact Or.inl (Or.inl h1)
      · cases r with
        | zero => exact Or.inl (Or.inr ⟨c, hc, h1, h2⟩)
        | succ r =>
          have hr' : r < bs.length := by simpa using hr
          refine Or.inr ⟨r, hr', c, hc, ?_, by simpa using h2⟩
          rw [hpix r hr', ← h1]; congr 1; omega

/-- Every pixel after a draw: XORed with the sprite's bit there. -/
theorem getPixel_drawSprite (fb : Grid) (rows : List Byte) (x0 y0 px py : Nat) (h : rows.length ≤ 32) :
    getPixel (drawSprite fb x0 y0 rows).1 px py =
      (getPixel fb px py ^^ spriteBit (fun r => rows.getD r 0#8) rows.length x0 y0 px py) :=
  getPixel_drawRows rows (fb, false) x0 y0 px py h

/-- A draw collides exactly when some 1 bit of the sprite lands on a set pixel. -/
theorem collision_drawSprite (fb : Grid) (rows : List Byte) (x0 y0 : Nat) (h : rows.length ≤ 32) :
    (drawSprite fb x0 y0 rows).2 = true ↔
      ∃ px < 64, ∃ py < 32, getPixel fb px py = true ∧ spriteBit (fun r => rows.getD r 0#8) rows.length x0 y0 px py = true := by
  unfold drawSprite
  rw [collision_drawRows rows _ _ _ h]
  simp only [Bool.false_eq_true, false_or]
  constructor
  · rintro ⟨r, hr, c, hc, h1, h2⟩
    refine ⟨(x0 + c) % 64, Nat.mod_lt _ (by decide), (y0 + r) % 32, Nat.mod_lt _ (by decide), ?_, ?_⟩
    · rw [getPixel_mod]; exact h1
    · have e1 : ((y0 + r) % 32 + (32 - y0 % 32)) % 32 = r := by omega
      have e2 : ((x0 + c) % 64 + (64 - x0 % 64)) % 64 = c := by omega
      simp only [spriteBit, e1, e2, hr, hc, decide_true, Bool.true_and]
      exact h2
  · rintro ⟨px, hpx, py, hpy, h1, h2⟩
    simp only [spriteBit, Bool.and_eq_true, decide_eq_true_eq] at h2
    refine ⟨_, h2.1.1, _, h2.1.2, ?_, h2.2⟩
    rw [← h1]
    exact getPixel_congr fb (by omega) (by omega)

end Sys2Proof.Machine
end

