-- ==== Sys2Proof/Laws/Ops.lean ====
section
/-! SUPPORT. One lemma for each shared operation, saying everything it can do: stack, stores, fetch, draw, keys, and the step cycle. -/

namespace Sys2Proof.Machine

variable (s : State)

/-! ### The call stack -/

theorem push_of_lt (a : Addr) (h : s.sp.val < 16) :
    s.push a = some { s with stack := s.stack.set s.sp.val a, sp := ⟨s.sp.val + 1, by omega⟩ } := by simp [State.push, h]

theorem push_of_full (a : Addr) (h : s.sp.val = 16) : s.push a = none := by simp [State.push, h]

theorem pop_of_pos (h : 0 < s.sp.val) :
    s.pop = some (s.stack[s.sp.val - 1], { s with sp := ⟨s.sp.val - 1, by omega⟩ }) := by simp [State.pop, h]

theorem pop_of_empty (h : s.sp.val = 0) : s.pop = none := by simp [State.pop, h]

/-! ### Stores at `I` -/

/-- A store that fits: memory is the block write, and `PC` advances. -/
theorem storeAtIndex_of_fits {bytes : List Byte} (h : s.i.toNat + bytes.length ≤ 4096) :
    ∃ m, Memory.writeBlock s.mem s.i.toNat bytes = some m ∧ s.storeAtIndex bytes = { s with mem := m }.advance := by
  obtain ⟨m, hm⟩ := writeBlock_isSome (m := s.mem) h
  exact ⟨m, hm, by simp [State.storeAtIndex, hm]⟩

/-- A store that does not fit is rejected whole. -/
theorem storeAtIndex_of_exceeds {bytes : List Byte} (hne : bytes ≠ []) (h : 4096 < s.i.toNat + bytes.length) :
    s.storeAtIndex bytes = s.rejectAccess := by
  have := writeBlock_eq_none (m := s.mem) |>.2 ⟨hne, h⟩
  simp [State.storeAtIndex, this]

/-- Every store at `I` either fits or is rejected. -/
theorem storeAtIndex_cases (bytes : List Byte) :
    (∃ m, Memory.writeBlock s.mem s.i.toNat bytes = some m ∧ s.storeAtIndex bytes = { s with mem := m }.advance) ∨
    (bytes ≠ [] ∧ 4096 < s.i.toNat + bytes.length ∧ s.storeAtIndex bytes = s.rejectAccess) := by
  rcases hm : Memory.writeBlock s.mem s.i.toNat bytes with _ | m
  · obtain ⟨h1, h2⟩ := writeBlock_eq_none.1 hm
    exact Or.inr ⟨h1, h2, storeAtIndex_of_exceeds s h1 h2⟩
  · exact Or.inl ⟨m, rfl, by simp [State.storeAtIndex, hm]⟩

/-! ### Fetch -/

/-- The fetch reads the two bytes at `PC`, high byte first, whenever both are in memory. -/
theorem fetch_of_lt (h : s.pc.toNat < 4095) :
    s.fetch = some (assembleWord (Memory.byteAt s.mem s.pc.toNat) (Memory.byteAt s.mem (s.pc.toNat + 1))) := by
  have h1 : s.pc.toNat < 4096 := by omega
  have h2 : s.pc.toNat + 1 < 4096 := by omega
  simp [State.fetch, Memory.readByte, h1, h2]

theorem fetch_of_ge (h : 4095 ≤ s.pc.toNat) : s.fetch = none := by
  have h2 : ¬ s.pc.toNat + 1 < 4096 := by omega
  unfold State.fetch Memory.readByte
  simp only [h2, if_false]
  split <;> simp_all

theorem fetch_eq_some {op : Opcode} (h : s.fetch = some op) : s.pc.toNat < 4095 := by
  by_contra hc
  rw [fetch_of_ge s (by omega)] at h
  cases h

/-! ### Keys -/

/-- With some key down, the least key is down, and no lower one is. -/
theorem leastKey_spec {keys : Keys} (h : keys ≠ 0#16) :
    leastKey keys < 16 ∧ keys.getLsbD (leastKey keys) = true ∧ ∀ j < leastKey keys, keys.getLsbD j = false := by
  unfold leastKey
  rcases hf : (List.range 16).find? (fun k => keys.getLsbD k) with _ | k
  · exfalso
    apply h
    apply BitVec.eq_of_getLsbD_eq
    intro j hj
    have := List.find?_eq_none.1 hf j (by simpa using hj)
    simpa using this
  · rw [Option.getD_some]
    rw [List.find?_range_eq_some] at hf
    refine ⟨by simpa using hf.2.1, hf.1, fun j hj => ?_⟩
    simpa using hf.2.2 j hj

/-! ### The step cycle (R64, R176) -/

theorem step_of_halted (h : s.halted = true) : step s = .next s.clearReport := by
  simp [step, State.cycle, h]

theorem step_of_fetch_none (hh : s.halted = false) (h : s.fetch = none) :
    step s = .next (s.clearReport.raise .fetchOutOfRange s.pc.toNat) := by
  have h' : s.clearReport.fetch = none := h
  simp [step, State.cycle, hh, h']

theorem step_of_fetch {op : Opcode} (hh : s.halted = false) (h : s.fetch = some op) :
    step s = exec (decode op) s.clearReport := by
  have h' : s.clearReport.fetch = some op := h
  simp [step, State.cycle, hh, h']

/-- Everything a step can be: halted, no fetch, or the decoded instruction. -/
theorem step_cases :
    (s.halted = true ∧ step s = .next s.clearReport) ∨
    (s.halted = false ∧ s.fetch = none ∧ step s = .next (s.clearReport.raise .fetchOutOfRange s.pc.toNat)) ∨
    (∃ op, s.halted = false ∧ s.fetch = some op ∧ step s = exec (decode op) s.clearReport) := by
  rcases hh : s.halted with _ | _
  · rcases hf : s.fetch with _ | op
    · exact Or.inr (Or.inl ⟨rfl, rfl, step_of_fetch_none s hh hf⟩)
    · exact Or.inr (Or.inr ⟨op, rfl, rfl, step_of_fetch s hh hf⟩)
  · exact Or.inl ⟨rfl, step_of_halted s hh⟩

end Sys2Proof.Machine
end

