-- ==== Sys2Proof/Laws/Frames.lean ====
section
/-! SUPPORT. Frames and reports from the fields: how the terms of Safety.lean follow, and what `raise` keeps. -/

namespace Sys2Proof.Machine

variable {s t : State}

theorem keepsMemory_of_eq (h : t.mem = s.mem) : KeepsMemory s t := fun a => by rw [h]

theorem keepsScreen_of_eq (h : t.fb = s.fb) (hd : t.dirty = s.dirty) : KeepsScreen s t := ⟨fun x y => by rw [h], hd⟩

theorem keepsStack_of_eq (h : t.sp = s.sp) (hs : t.stack = s.stack) : KeepsStack s t := ⟨h, fun k hk => by simp [hs]⟩

theorem keepsRegs_of_eq (h : t.v = s.v) : KeepsRegs s t := fun x => by simp [State.getV, h]

/-- A state that differs in `V`, `I` and `PC` alone keeps the rest. -/
theorem keepsRest_of_eq (hm : t.mem = s.mem) (hf : t.fb = s.fb) (hd : t.dirty = s.dirty) (hsp : t.sp = s.sp) (hst : t.stack = s.stack)
    (hdt : t.dt = s.dt) (hsd : t.st = s.st) (hh : t.halted = s.halted) (he : t.err = s.err) (hr : t.report = s.report)
    (hk : t.keyIndex = s.keyIndex) (hn : t.randIndex = s.randIndex) : KeepsRest s t :=
  ⟨keepsMemory_of_eq hm, keepsScreen_of_eq hf hd, keepsStack_of_eq hsp hst, ⟨hdt, hsd⟩, ⟨hh, he, hr⟩, ⟨hk, hn⟩⟩

/-! ### The program counter -/

theorem pcAdvances_two (h : t.pc = s.pc + 2#16) : PcAdvances s t 2 := by simp [PcAdvances, h]

theorem pcAdvances_skipIf (s : State) (c : Bool) : PcAdvances s (s.skipIf c) (if c then 4 else 2) := by cases c <;> simp [PcAdvances]

/-! ### Raising a condition (R170 to R177) -/

/-- The bit of `ERR` that a condition sets is bit `code - 1`, and no other (R20). -/
theorem getLsbD_errBit (c : Condition) (k : Nat) : c.errBit.getLsbD k = decide (k + 1 = c.code) := by
  by_cases hk : k < 5
  · cases c <;> interval_cases k <;> decide
  · rw [BitVec.getLsbD_of_ge _ _ (by omega)]
    cases c <;> simp [Condition.code] <;> omega

/-- `raise` reports exactly its condition. -/
theorem reports_raise (s : State) (c : Condition) (info : Nat) : Reports s (s.raise c info) c info :=
  ⟨by simp, fun k => by simp [getLsbD_errBit]⟩

/-- What `raise` leaves alone, whatever the condition. -/
theorem raise_keeps (s : State) (c : Condition) (info : Nat) :
    KeepsRegs s (s.raise c info) ∧ (s.raise c info).i = s.i ∧ KeepsMemory s (s.raise c info) ∧ KeepsScreen s (s.raise c info) ∧
      KeepsStack s (s.raise c info) ∧ KeepsTimers s (s.raise c info) ∧ KeepsInputs s (s.raise c info) :=
  ⟨fun x => by simp, by simp, keepsMemory_of_eq (by simp), keepsScreen_of_eq (by simp) (by simp),
    keepsStack_of_eq (by simp) (by simp), ⟨by simp, by simp⟩, ⟨by simp, by simp⟩⟩

/-- A fatal condition sets `HALTED` and leaves `PC` at the instruction (R177). -/
theorem raise_fatal (s : State) {c : Condition} (info : Nat) (h : c.fatal = true) :
    (s.raise c info).halted = true ∧ (s.raise c info).pc = s.pc := by simp [h]

/-- A recoverable condition moves `PC` by 2 and leaves `HALTED` as it was (R177). -/
theorem raise_recoverable (s : State) {c : Condition} (info : Nat) (h : c.fatal = false) :
    (s.raise c info).halted = s.halted ∧ PcAdvances s (s.raise c info) 2 := by simp [h, PcAdvances]

end Sys2Proof.Machine
end

