-- ==== Sys2Proof/Laws/Exec.lean ====
section
/-! SUPPORT. The shared results of the ALU, and what the meanings with several outcomes answer in each case. -/

namespace Sys2Proof.Machine

variable (s : State)

/-! ### Results and flags (R100) -/

@[simp] theorem toNat_flagByte (b : Bool) : (flagByte b).toNat = if b then 1 else 0 := by cases b <;> rfl

theorem getV_result (x k : Reg) (b : Byte) : (s.result x b).getV k = if k = x then b else s.getV k := by
  simp [State.result, getV_setV]

/-- The flag is what remains in `VF`, also when the result went there (R100). -/
theorem getV_resultFlag (x k : Reg) (b flag : Byte) :
    (s.resultFlag x b flag).getV k = if k = regF then flag else if k = x then b else s.getV k := by
  simp [State.resultFlag, getV_setV]

/-! ### The stack instructions -/

theorem exec_call_of_lt (nnn : Addr12) (h : s.sp.val < 16) :
    exec (.call nnn) s = .next (State.jump { s with stack := s.stack.set s.sp.val (s.pc + 2#16), sp := ⟨s.sp.val + 1, by omega⟩ } (zextAddr nnn)) := by
  simp only [exec, execCall, push_of_lt s _ h]

theorem exec_call_of_full (nnn : Addr12) (h : s.sp.val = 16) : exec (.call nnn) s = .next (s.raise .stackOverflow 0) := by
  simp only [exec, execCall, push_of_full s _ h]

theorem exec_ret_of_pos (h : 0 < s.sp.val) :
    exec .ret s = .next (State.jump { s with sp := ⟨s.sp.val - 1, by omega⟩ } s.stack[s.sp.val - 1]) := by
  simp only [exec, execRet, pop_of_pos s h]

theorem exec_ret_of_empty (h : s.sp.val = 0) : exec .ret s = .next (s.raise .stackUnderflow 0) := by
  simp only [exec, execRet, pop_of_empty s h]

/-! ### The instructions that read a block at `I` -/

/-- `DRW` with its rows in memory draws the bytes that stand there. -/
theorem exec_drw_of_fits (x y : Reg) (n : Nibble) (h : n.toNat = 0 ∨ s.i.toNat + n.toNat ≤ 4096) :
    ∃ rows, rows.length = n.toNat ∧ (∀ k (hk : k < rows.length), rows[k] = Memory.byteAt s.mem (s.i.toNat + k)) ∧
      exec (.drw x y n) s = .next (s.draw (s.getV x) (s.getV y) rows) := by
  obtain ⟨rows, hr⟩ := readBlock_isSome (m := s.mem) h
  obtain ⟨h1, h2⟩ := readBlock_eq_some hr
  exact ⟨rows, h1, h2, by simp only [exec, execDrw, hr]⟩

theorem exec_drw_of_exceeds (x y : Reg) (n : Nibble) (hn : n.toNat ≠ 0) (h : 4096 < s.i.toNat + n.toNat) :
    exec (.drw x y n) s = .next s.rejectAccess := by
  simp only [exec, execDrw, readBlock_eq_none.2 ⟨hn, h⟩]

theorem exec_loadRegs_of_fits (x : Reg) (h : s.i.toNat + x.toNat < 4096) :
    ∃ bs, bs.length = x.toNat + 1 ∧ (∀ k (hk : k < bs.length), bs[k] = Memory.byteAt s.mem (s.i.toNat + k)) ∧
      exec (.loadRegs x) s = .next (State.advance { s with v := setRegBlock s.v 0 bs }) := by
  obtain ⟨bs, hb⟩ := readBlock_isSome (m := s.mem) (n := x.toNat + 1) (a := s.i.toNat) (Or.inr (by omega))
  obtain ⟨h1, h2⟩ := readBlock_eq_some hb
  exact ⟨bs, h1, h2, by simp only [exec, execLoadRegs, hb]⟩

theorem exec_loadRegs_of_exceeds (x : Reg) (h : 4096 ≤ s.i.toNat + x.toNat) :
    exec (.loadRegs x) s = .next s.rejectAccess := by
  have hb : Memory.readBlock s.mem s.i.toNat (x.toNat + 1) = none := readBlock_eq_none.2 ⟨Nat.succ_ne_zero _, by omega⟩
  simp only [exec, execLoadRegs, hb]

/-- The bits of a sprite depend only on the bytes of its rows. -/
theorem spriteBit_congr {f g : Nat → Byte} {n : Nat} (h : ∀ r < n, f r = g r) (x0 y0 px py : Nat) :
    spriteBit f n x0 y0 px py = spriteBit g n x0 y0 px py := by
  unfold spriteBit
  by_cases hr : (py + (32 - y0 % 32)) % 32 < n
  · simp [h _ hr]
  · simp [hr]

/-! ### A rejected access (R50, R172) -/

theorem rejectAccess_keeps :
    Reports s s.rejectAccess .memOutOfRange (max s.i.toNat 4096) ∧ s.rejectAccess.halted = s.halted ∧ PcAdvances s s.rejectAccess 2 :=
  ⟨reports_raise s _ _, (raise_recoverable s _ rfl).1, (raise_recoverable s _ rfl).2⟩

end Sys2Proof.Machine
end

