-- ==== Sys2Proof/Laws/HostPort.lean ====
section
/-! SUPPORT. What the host's transitions can do, and what a list of them does (R4, R57, R201). -/

namespace Sys2Proof.Machine

/-- Everything `load` can do: the program fits and memory is the block write, or it does not and is refused. -/
theorem load_cases (s : State) (bytes : List Byte) :
    (∃ m, Memory.writeBlock s.mem 0x200 bytes = some m ∧ s.load bytes = .next { s with mem := m }) ∨
    (3584 < bytes.length ∧ s.load bytes = .refused (.programTooLong bytes.length)) := by
  rcases hm : Memory.writeBlock s.mem 0x200 bytes with _ | m
  · obtain ⟨-, h⟩ := writeBlock_eq_none.1 hm
    exact Or.inr ⟨by omega, by simp only [State.load, Config.progBase, hm]⟩
  · exact Or.inl ⟨m, rfl, by simp only [State.load, Config.progBase, hm]⟩

@[simp] theorem fireAll_nil (p : Phase) (s : State) : fireAll p [] s = .next s := rfl

/-- A list that ends in a next state starts with a transition that is in order and ends in one. -/
theorem fireAll_cons {p : Phase} {tr : Transition} {ts : List Transition} {s u : State} :
    fireAll p (tr :: ts) s = .next u ↔ ∃ p' t, p.after tr = some p' ∧ fire tr s = .next t ∧ fireAll p' ts t = .next u := by
  rw [fireAll]
  rcases p.after tr with _ | p'
  · simp
  · rcases fire tr s with t | r | r <;> simp

/-- A program that has been loaded stays loaded, until the machine is constructed again. -/
theorem after_loaded {tr : Transition} {p : Phase} (h : Phase.loaded.after tr = some p) (hr : tr ≠ .reset) : p = .loaded := by
  cases tr with
  | reset => exact absurd rfl hr
  | load bytes => cases h
  | step | tick | present => exact (Option.some.inj h).symm

/-- After a `load` no other `load` is in order. -/
theorem after_loaded_ne_load {tr : Transition} {p : Phase} (h : Phase.loaded.after tr = some p) (bytes : List Byte) : tr ≠ .load bytes := by
  rintro rfl
  cases h

/-- Once the program is loaded, a run goes on where its first part ended, until the machine is constructed again. -/
theorem fireAll_loaded_append {pre : List Transition} (ts : List Transition) {s u : State} (hr : .reset ∉ pre)
    (h : fireAll .loaded pre s = .next u) : fireAll .loaded (pre ++ ts) s = fireAll .loaded ts u := by
  induction pre generalizing s with
  | nil => injection h with h; subst h; rfl
  | cons tr pre ih =>
    rw [List.mem_cons, not_or] at hr
    obtain ⟨hne, hr⟩ := hr
    obtain ⟨p, v, hp, hv, hpre⟩ := fireAll_cons.1 h
    obtain rfl := after_loaded hp (Ne.symm hne)
    rw [List.cons_append, fireAll, hp]
    simp only [hv, ih hr hpre]

/-- Ticks and presents leave the phase as it is, and answer a next state. -/
theorem fireAll_ticks_append (p : Phase) {pre : List Transition} (ts : List Transition) (s : State) (h : OnlyTicksAndPresents pre) :
    ∃ u, fireAll p pre s = .next u ∧ fireAll p (pre ++ ts) s = fireAll p ts u := by
  induction pre generalizing s with
  | nil => exact ⟨s, rfl, rfl⟩
  | cons tr pre ih =>
    obtain ⟨htr, hpre⟩ := List.forall_mem_cons.1 h
    rcases htr with rfl | rfl
    · obtain ⟨u, h1, h2⟩ := ih s.tick hpre
      exact ⟨u, by cases p <;> exact h1, by cases p <;> exact h2⟩
    · obtain ⟨u, h1, h2⟩ := ih s.present hpre
      exact ⟨u, by cases p <;> exact h1, by cases p <;> exact h2⟩

end Sys2Proof.Machine
end

