-- ==== Sys2Proof/Laws/PerInstr.lean ====
section
/-! SUPPORT. Statements for all instructions, one lemma per constructor. -/

namespace Sys2Proof

/-! ### Masking a word put together from fields: the three masks of the opcode map (30_encoding.md R66) -/

theorem wordNNN_and_class (c : BitVec 4) (nnn : Addr12) : wordNNN c nnn &&& 0xF000#16 = wordNNN c 0x000#12 := by
  apply BitVec.eq_of_getLsbD_eq
  intro j hj
  simp only [wordNNN, BitVec.getLsbD_and, BitVec.getLsbD_append]
  interval_cases j <;> simp

theorem wordXNN_and_class (c : BitVec 4) (x : Reg) (nn : Byte) : wordXNN c x nn &&& 0xF000#16 = wordXNN c 0x0#4 0x00#8 := by
  apply BitVec.eq_of_getLsbD_eq
  intro j hj
  simp only [wordXNN, BitVec.getLsbD_and, BitVec.getLsbD_append]
  interval_cases j <;> simp

theorem wordXNN_and_sub (c : BitVec 4) (x : Reg) (nn : Byte) : wordXNN c x nn &&& 0xF0FF#16 = wordXNN c 0x0#4 nn := by
  apply BitVec.eq_of_getLsbD_eq
  intro j hj
  simp only [wordXNN, BitVec.getLsbD_and, BitVec.getLsbD_append]
  interval_cases j <;> simp

theorem wordXYN_and_class (c : BitVec 4) (x y : Reg) (n : Nibble) :
    wordXYN c x y n &&& 0xF000#16 = wordXYN c 0x0#4 0x0#4 0x0#4 := by
  apply BitVec.eq_of_getLsbD_eq
  intro j hj
  simp only [wordXYN, BitVec.getLsbD_and, BitVec.getLsbD_append]
  interval_cases j <;> simp

theorem wordXYN_and_sub (c : BitVec 4) (x y : Reg) (n : Nibble) :
    wordXYN c x y n &&& 0xF00F#16 = wordXYN c 0x0#4 0x0#4 n := by
  apply BitVec.eq_of_getLsbD_eq
  intro j hj
  simp only [wordXYN, BitVec.getLsbD_and, BitVec.getLsbD_append]
  interval_cases j <;> simp

namespace Laws.EncodingFitsRow

/-- The encoding of an instruction selects the instruction's own row of the opcode map: `encode i AND mask = match` (R66). -/
def Statement (i : Instr) : Prop := encode i &&& i.mask = i.pattern

theorem cls : Statement (.cls) := by unfold Statement; decide

theorem ret : Statement (.ret) := by unfold Statement; decide

theorem jp (nnn : Addr12) : Statement (.jp nnn) := wordNNN_and_class _ _

theorem call (nnn : Addr12) : Statement (.call nnn) := wordNNN_and_class _ _

theorem seImm (x : Reg) (nn : Byte) : Statement (.seImm x nn) := wordXNN_and_class _ _ _

theorem sneImm (x : Reg) (nn : Byte) : Statement (.sneImm x nn) := wordXNN_and_class _ _ _

theorem seReg (x y : Reg) : Statement (.seReg x y) := wordXYN_and_class _ _ _ _

theorem ldImm (x : Reg) (nn : Byte) : Statement (.ldImm x nn) := wordXNN_and_class _ _ _

theorem addImm (x : Reg) (nn : Byte) : Statement (.addImm x nn) := wordXNN_and_class _ _ _

theorem ldReg (x y : Reg) : Statement (.ldReg x y) := wordXYN_and_sub _ _ _ _

theorem orReg (x y : Reg) : Statement (.orReg x y) := wordXYN_and_sub _ _ _ _

theorem andReg (x y : Reg) : Statement (.andReg x y) := wordXYN_and_sub _ _ _ _

theorem xorReg (x y : Reg) : Statement (.xorReg x y) := wordXYN_and_sub _ _ _ _

theorem addReg (x y : Reg) : Statement (.addReg x y) := wordXYN_and_sub _ _ _ _

theorem subReg (x y : Reg) : Statement (.subReg x y) := wordXYN_and_sub _ _ _ _

theorem shrReg (x y : Reg) : Statement (.shrReg x y) := wordXYN_and_sub _ _ _ _

theorem subnReg (x y : Reg) : Statement (.subnReg x y) := wordXYN_and_sub _ _ _ _

theorem shlReg (x y : Reg) : Statement (.shlReg x y) := wordXYN_and_sub _ _ _ _

theorem sneReg (x y : Reg) : Statement (.sneReg x y) := wordXYN_and_class _ _ _ _

theorem ldI (nnn : Addr12) : Statement (.ldI nnn) := wordNNN_and_class _ _

theorem jpV0 (nnn : Addr12) : Statement (.jpV0 nnn) := wordNNN_and_class _ _

theorem rnd (x : Reg) (nn : Byte) : Statement (.rnd x nn) := wordXNN_and_class _ _ _

theorem drw (x y : Reg) (n : Nibble) : Statement (.drw x y n) := wordXYN_and_class _ _ _ _

theorem skp (x : Reg) : Statement (.skp x) := wordXNN_and_sub _ _ _

theorem sknp (x : Reg) : Statement (.sknp x) := wordXNN_and_sub _ _ _

theorem getDt (x : Reg) : Statement (.getDt x) := wordXNN_and_sub _ _ _

theorem waitKey (x : Reg) : Statement (.waitKey x) := wordXNN_and_sub _ _ _

theorem setDt (x : Reg) : Statement (.setDt x) := wordXNN_and_sub _ _ _

theorem setSt (x : Reg) : Statement (.setSt x) := wordXNN_and_sub _ _ _

theorem addI (x : Reg) : Statement (.addI x) := wordXNN_and_sub _ _ _

theorem glyph (x : Reg) : Statement (.glyph x) := wordXNN_and_sub _ _ _

theorem bcd (x : Reg) : Statement (.bcd x) := wordXNN_and_sub _ _ _

theorem storeRegs (x : Reg) : Statement (.storeRegs x) := wordXNN_and_sub _ _ _

theorem loadRegs (x : Reg) : Statement (.loadRegs x) := wordXNN_and_sub _ _ _

theorem unimpl (op : Opcode) : Statement (.unimpl op) := BitVec.and_zero

end Laws.EncodingFitsRow

end Sys2Proof
end

