-- ==== Sys2Proof/Tests/Slice0.lean ====
section
/-! SUPPORT. Tests of single steps and single words against the values 95_test_vectors.md gives (its row names stand in the comments), the
smoke test of WellFormed, and a witness for the hypotheses of every statement that has any. -/

namespace Sys2Proof.Tests

open Sys2Proof Sys2Proof.Machine

-- one theorem at a time: each runs in a thread of its own otherwise, and their stacks do not fit in the memory of the check
set_option Elab.async false

/-! ### Small helpers -/

/-- The reset state with some registers set. -/
def start (regs : List (Reg × Byte)) : State := regs.foldl (fun s p => s.setV p.1 p.2) State.reset

/-- `s` with `I` set and bytes written there. -/
def atIndex (a : Addr) (bytes : List Byte) (s : State) : State :=
  { s with i := a, mem := (Memory.writeBlock s.mem a.toNat bytes).getD s.mem }

/-- `s` with these stack entries in use, bottom first. -/
def withStack (entries : List Addr) (s : State) : State := entries.foldl (fun s a => (s.push a).getD s) s

/-- `s` with these pixels set. -/
def withPixels (pixels : List (Nat × Nat)) (s : State) : State :=
  { s with fb := pixels.foldl (fun fb p => setPixel fb p.1 p.2 true) s.fb }

/-- The outcome is a next state of which `f` holds. -/
def ends (o : Result) (f : State → Bool) : Bool :=
  match o with
  | .next t => f t
  | .fault _ => false
  | .refused _ => false

/-- The outcome is this refusal. -/
def refuses (o : Result) (r : Refusal) : Bool :=
  match o with
  | .refused r' => r' == r
  | .next _ => false
  | .fault _ => false

/-- One step on `s` with the word `w` placed at its `PC` ends in a state of which `f` holds. -/
def steps (s : State) (w : Nat) (f : State → Bool) : Bool := ends (step (s.withFetchWord 16 w)) f

/-- `PC` and the report of a step that raised nothing. -/
def quiet (pc : Addr) (t : State) : Bool := t.pc == pc && t.report == none && t.err == 0b00000#5 && !t.halted

/-- `PC`, `ERR` and the report of a step at 0x200 that raised a condition. -/
def raised (c : Condition) (info : Nat) (err : BitVec 5) (pc : Addr) (t : State) : Bool :=
  t.report == some ⟨c, 0x200#16, info⟩ && t.err == err && t.pc == pc

/-- The bytes at `a`, `a + 1`, ... -/
def bytes (t : State) (a n : Nat) : List Byte := (List.range n).map fun k => Memory.byteAt t.mem (a + k)

/-- The set pixels, as (column, row), row by row and left to right. -/
def pixelsOf (t : State) : List (Nat × Nat) :=
  t.fb.toList.zipIdx.flatMap fun row => row.1.toList.zipIdx.filterMap fun p => if p.1 then some (p.2, row.2) else none

/-! ### WellFormed refuses what is no instruction (R67) -/

theorem test_wellFormed_unimpl_of_jump : (Instr.unimpl 0x1234#16).wellFormed = false := by decide
theorem test_wellFormed_unimpl_of_cls : (Instr.unimpl 0x0AE0#16).wellFormed = false := by decide
theorem test_wellFormed_unimpl_of_shl : (Instr.unimpl 0x812E#16).wellFormed = false := by decide
theorem test_wellFormed_unimpl_of_skp : (Instr.unimpl 0xEF9E#16).wellFormed = false := by decide
theorem test_wellFormed_unimpl_of_load : (Instr.unimpl 0xF265#16).wellFormed = false := by decide
theorem test_wellFormed_unimpl_row : (Instr.unimpl 0x8128#16).wellFormed = true := by decide

/-! ### Decoding: a word for every row, written out from the encodings of R62 and R66 -/

/-- 0001 NNNN NNNN NNNN, 0010, 1010 and 1011: class and twelve address bits. -/
theorem test_decode_format_NNN :
    decode 0b0001001000110100#16 = .jp 0x234#12 ∧ decode 0b0010101010111100#16 = .call 0xABC#12 ∧
    decode 0b1010000100100011#16 = .ldI 0x123#12 ∧ decode 0b1011001100000000#16 = .jpV0 0x300#12 := by decide

/-- 0011, 0100, 0110, 0111 and 1100: class, X, and eight immediate bits. -/
theorem test_decode_format_XNN :
    decode 0b0011101001000010#16 = .seImm 0xA#4 0x42#8 ∧ decode 0b0100101001000010#16 = .sneImm 0xA#4 0x42#8 ∧
    decode 0b0110110011111111#16 = .ldImm 0xC#4 0xFF#8 ∧ decode 0b0111101000001010#16 = .addImm 0xA#4 0x0A#8 ∧
    decode 0b1100000100001111#16 = .rnd 0x1#4 0x0F#8 := by decide

/-- 0101 and 1001: class, X, Y and four ignored bits. -/
theorem test_decode_format_XYi :
    decode 0b0101000100100000#16 = .seReg 0x1#4 0x2#4 ∧ decode 0b0101000100101111#16 = .seReg 0x1#4 0x2#4 ∧
    decode 0b1001000100100000#16 = .sneReg 0x1#4 0x2#4 ∧ decode 0b1001000100100101#16 = .sneReg 0x1#4 0x2#4 := by decide

/-- 1000: X, Y and the operation in the low four bits. -/
theorem test_decode_format_XYs :
    decode 0b1000101010110000#16 = .ldReg 0xA#4 0xB#4 ∧ decode 0b1000101010110001#16 = .orReg 0xA#4 0xB#4 ∧
    decode 0b1000101010110010#16 = .andReg 0xA#4 0xB#4 ∧ decode 0b1000101010110011#16 = .xorReg 0xA#4 0xB#4 ∧
    decode 0b1000101010110100#16 = .addReg 0xA#4 0xB#4 ∧ decode 0b1000101010110101#16 = .subReg 0xA#4 0xB#4 ∧
    decode 0b1000101010110110#16 = .shrReg 0xA#4 0xB#4 ∧ decode 0b1000101010110111#16 = .subnReg 0xA#4 0xB#4 ∧
    decode 0b1000101010111110#16 = .shlReg 0xA#4 0xB#4 := by decide

/-- 1101: X, Y, N. -/
theorem test_decode_format_XYN : decode 0b1101000100101010#16 = .drw 0x1#4 0x2#4 0xA#4 := by decide

/-- 1110 and 1111: X and the operation in the low eight bits. -/
theorem test_decode_format_Xss :
    decode 0b1110000110011110#16 = .skp 0x1#4 ∧ decode 0b1110000110100001#16 = .sknp 0x1#4 ∧
    decode 0b1111000100000111#16 = .getDt 0x1#4 ∧ decode 0b1111000100001010#16 = .waitKey 0x1#4 ∧
    decode 0b1111000100010101#16 = .setDt 0x1#4 ∧ decode 0b1111000100011000#16 = .setSt 0x1#4 ∧
    decode 0b1111000100011110#16 = .addI 0x1#4 ∧ decode 0b1111000100101001#16 = .glyph 0x1#4 ∧
    decode 0b1111000100110011#16 = .bcd 0x1#4 ∧ decode 0b1111001001010101#16 = .storeRegs 0x2#4 ∧
    decode 0b1111001001100101#16 = .loadRegs 0x2#4 := by decide

/-- 0000: the operation in the low eight bits, X ignored. -/
theorem test_decode_format_iss :
    decode 0b0000000011100000#16 = .cls ∧ decode 0b0000101011100000#16 = .cls ∧
    decode 0b0000000011101110#16 = .ret ∧ decode 0b0000111111101110#16 = .ret := by decide

/-- The UNIMPL rows of section 3. -/
theorem test_decode_unimpl : decode 0x0000#16 = .unimpl 0x0000#16 ∧ decode 0x0123#16 = .unimpl 0x0123#16 ∧
    decode 0x8128#16 = .unimpl 0x8128#16 ∧ decode 0x812F#16 = .unimpl 0x812F#16 ∧ decode 0xE19F#16 = .unimpl 0xE19F#16 ∧
    decode 0xE100#16 = .unimpl 0xE100#16 ∧ decode 0xF175#16 = .unimpl 0xF175#16 ∧ decode 0xFFFF#16 = .unimpl 0xFFFF#16 := by decide

theorem test_decodeTableWord : decodeTableWord 16 0xD12A = some (.drw 0x1#4 0x2#4 0xA#4) ∧ decodeTableWord 16 0 = some (.unimpl 0x0000#16) ∧
    decodeTableWord 24 0xD12A = none := by decide +kernel

/-! ### Control flow -/

/-- F1. -/
theorem test_jp : steps (start []) 0x1ABC (quiet 0xABC#16) := by decide +kernel
/-- F2: a self-jump, fixed. -/
theorem test_jp_self : steps (start []) 0x1200 (fun t => t == (start []).withFetchWord 16 0x1200) := by decide +kernel
/-- F3. -/
theorem test_call : steps { withStack [0x202#16] (start []) with pc := 0x300#16 } 0x2ABC
    (fun t => quiet 0xABC#16 t && t.sp == 2 && t.stack[0] == 0x202#16 && t.stack[1] == 0x302#16) := by decide +kernel
/-- F5. -/
theorem test_call_full : steps (withStack (List.replicate 16 0x202#16) (start [])) 0x2300
    (fun t => raised .stackOverflow 0 0b00100#5 0x200#16 t && t.halted && t.sp == 16 && t.stack.all (· == 0x202#16)) := by decide +kernel
/-- F6. -/
theorem test_ret : steps (withStack [0x202#16, 0x345#16] (start [])) 0x00EE (fun t => quiet 0x345#16 t && t.sp == 1) := by decide +kernel
/-- F7. -/
theorem test_ret_empty : steps (start []) 0x00EE
    (fun t => raised .stackUnderflow 0 0b01000#5 0x200#16 t && t.halted && t.sp == 0) := by decide +kernel
/-- F9, F10. -/
theorem test_seImm : steps (start [(0xA#4, 0x42#8)]) 0x3A42 (quiet 0x204#16) && steps (start [(0xA#4, 0x43#8)]) 0x3A42 (quiet 0x202#16) := by
  decide +kernel
/-- F11, F12. -/
theorem test_sneImm : steps (start [(0xA#4, 0x42#8)]) 0x4A42 (quiet 0x202#16) && steps (start [(0xA#4, 0x43#8)]) 0x4A42 (quiet 0x204#16) := by
  decide +kernel
/-- F16, F14. -/
theorem test_seReg : steps (start [(0x1#4, 7#8), (0x2#4, 7#8)]) 0x512F (quiet 0x204#16) &&
    steps (start [(0x1#4, 7#8), (0x2#4, 8#8)]) 0x5120 (quiet 0x202#16) := by decide +kernel
/-- F17, F19. -/
theorem test_sneReg : steps (start [(0x1#4, 7#8), (0x2#4, 7#8)]) 0x9120 (quiet 0x202#16) &&
    steps (start [(0x1#4, 7#8), (0x2#4, 8#8)]) 0x9125 (quiet 0x204#16) := by decide +kernel
/-- F20. -/
theorem test_jpV0 : steps (start [(0x0#4, 0x10#8)]) 0xB300 (quiet 0x310#16) := by decide +kernel
/-- F21. -/
theorem test_jpV0_not_masked : steps (start [(0x0#4, 0xFF#8)]) 0xBFFF (quiet 0x10FE#16) := by decide +kernel
/-- F22. -/
theorem test_skip_past_memory : steps { start [] with pc := 0xFFD#16 } 0x3000 (quiet 0x1001#16) := by decide +kernel

/-! ### Immediates and the ALU -/

/-- A2. -/
theorem test_ldImm : steps (start []) 0x6F12 (fun t => quiet 0x202#16 t && t.getV regF == 0x12#8) := by decide +kernel
/-- A4. -/
theorem test_addImm : steps (start [(0xA#4, 250#8), (regF, 1#8)]) 0x7A0A
    (fun t => quiet 0x202#16 t && t.getV 0xA#4 == 4#8 && t.getV regF == 1#8) := by decide +kernel
/-- A5. -/
theorem test_addImm_VF : steps (start [(regF, 255#8)]) 0x7F01 (fun t => t.getV regF == 0#8) := by decide +kernel
/-- A6. -/
theorem test_ldReg : steps (start [(0x1#4, 1#8), (0x2#4, 2#8)]) 0x8120 (fun t => quiet 0x202#16 t && t.getV 0x1#4 == 2#8) := by decide +kernel
/-- A7. -/
theorem test_orReg : steps (start [(0x1#4, 0xF0#8), (0x2#4, 0x3C#8), (regF, 1#8)]) 0x8121
    (fun t => t.getV 0x1#4 == 0xFC#8 && t.getV regF == 1#8) := by decide +kernel
/-- A8. -/
theorem test_andReg : steps (start [(0x1#4, 0xF0#8), (0x2#4, 0x3C#8), (regF, 1#8)]) 0x8122
    (fun t => t.getV 0x1#4 == 0x30#8 && t.getV regF == 1#8) := by decide +kernel
/-- A9. -/
theorem test_xorReg : steps (start [(0x1#4, 0xF0#8), (0x2#4, 0x3C#8), (regF, 1#8)]) 0x8123
    (fun t => t.getV 0x1#4 == 0xCC#8 && t.getV regF == 1#8) := by decide +kernel
/-- A11, A12. -/
theorem test_addReg : steps (start [(0x1#4, 200#8), (0x2#4, 100#8)]) 0x8124 (fun t => t.getV 0x1#4 == 44#8 && t.getV regF == 1#8) &&
    steps (start [(0x1#4, 10#8), (0x2#4, 20#8), (regF, 1#8)]) 0x8124 (fun t => t.getV 0x1#4 == 30#8 && t.getV regF == 0#8) := by
  decide +kernel
/-- A16, A18: the flag wins, and the old `VF` is the operand. -/
theorem test_addReg_VF : steps (start [(regF, 200#8), (0x1#4, 100#8)]) 0x8F14 (fun t => t.getV regF == 1#8) &&
    steps (start [(0x1#4, 5#8), (regF, 1#8)]) 0x81F4 (fun t => t.getV 0x1#4 == 6#8 && t.getV regF == 0#8) := by decide +kernel
/-- A20, A22. -/
theorem test_subReg : steps (start [(0x1#4, 10#8), (0x2#4, 20#8)]) 0x8125 (fun t => t.getV 0x1#4 == 246#8 && t.getV regF == 0#8) &&
    steps (start [(0x1#4, 7#8), (0x2#4, 7#8)]) 0x8125 (fun t => t.getV 0x1#4 == 0#8 && t.getV regF == 1#8) := by decide +kernel
/-- A26, A27. -/
theorem test_subReg_VF : steps (start [(regF, 3#8), (0x1#4, 5#8)]) 0x8F15 (fun t => t.getV regF == 0#8) &&
    steps (start [(0x1#4, 5#8), (regF, 1#8)]) 0x81F5 (fun t => t.getV 0x1#4 == 4#8 && t.getV regF == 1#8) := by decide +kernel
/-- A28, A29. -/
theorem test_subnReg : steps (start [(0x1#4, 10#8), (0x2#4, 20#8)]) 0x8127 (fun t => t.getV 0x1#4 == 10#8 && t.getV regF == 1#8) &&
    steps (start [(0x1#4, 20#8), (0x2#4, 10#8)]) 0x8127 (fun t => t.getV 0x1#4 == 246#8 && t.getV regF == 0#8) := by decide +kernel
/-- A31. -/
theorem test_subnReg_VF : steps (start [(regF, 3#8), (0x1#4, 5#8)]) 0x8F17 (fun t => t.getV regF == 1#8) := by decide +kernel
/-- A32: the old `V[1]` plays no part. -/
theorem test_shrReg : steps (start [(0x1#4, 0xAA#8), (0x2#4, 0x05#8)]) 0x8126
    (fun t => t.getV 0x1#4 == 0x02#8 && t.getV regF == 1#8 && t.getV 0x2#4 == 0x05#8) := by decide +kernel
/-- A38. -/
theorem test_shrReg_VF : steps (start [(regF, 3#8)]) 0x81F6 (fun t => t.getV 0x1#4 == 1#8 && t.getV regF == 1#8) := by decide +kernel
/-- A39. -/
theorem test_shlReg : steps (start [(0x1#4, 0xAA#8), (0x2#4, 0x81#8)]) 0x812E
    (fun t => t.getV 0x1#4 == 0x02#8 && t.getV regF == 1#8) := by decide +kernel
/-- A42. -/
theorem test_shlReg_VF : steps (start [(0x2#4, 0xC0#8)]) 0x8F2E (fun t => t.getV regF == 1#8) := by decide +kernel
/-- A44. -/
theorem test_unimpl : steps (start [(0x1#4, 1#8), (0x2#4, 2#8)]) 0x8128
    (fun t => raised .unimplementedInstruction 0x8128 0b00001#5 0x202#16 t && !t.halted && t.getV 0x1#4 == 1#8) := by decide +kernel

/-! ### The index register and memory -/

/-- M2. -/
theorem test_ldI : steps (start []) 0xAFFF (fun t => quiet 0x202#16 t && t.i == 0x0FFF#16) := by decide +kernel
/-- M4, M5. -/
theorem test_addI : steps { start [(0x1#4, 0xFF#8)] with i := 0xFFF#16 } 0xF11E (fun t => t.i == 0x10FE#16 && t.getV regF == 0#8) &&
    steps { start [(0x1#4, 1#8)] with i := 0xFFFF#16 } 0xF11E (fun t => t.i == 0x0000#16) := by decide +kernel
/-- M7, M9. -/
theorem test_glyph : steps (start [(0x1#4, 0x0A#8)]) 0xF129 (fun t => quiet 0x202#16 t && t.i == 0x082#16) &&
    steps (start [(0x1#4, 0x1A#8)]) 0xF129 (fun t => t.i == 0x082#16) := by decide +kernel
/-- M11, M15. -/
theorem test_bcd : steps { start [(0x1#4, 156#8)] with i := 0x300#16 } 0xF133
    (fun t => quiet 0x202#16 t && bytes t 0x300 3 == [1#8, 5#8, 6#8] && t.i == 0x300#16) &&
    steps { start [(0x1#4, 100#8)] with i := 0xFFD#16 } 0xF133 (fun t => quiet 0x202#16 t && bytes t 0xFFD 3 == [1#8, 0#8, 0#8]) := by
  decide +kernel
/-- M16, M19. -/
theorem test_bcd_rejected : steps (atIndex 0xFFE#16 [9#8, 9#8] (start [(0x1#4, 100#8)])) 0xF133
    (fun t => raised .memOutOfRange 0x1000 0b00010#5 0x202#16 t && bytes t 0xFFE 2 == [9#8, 9#8]) &&
    steps { start [(0x1#4, 100#8)] with i := 0xFFFF#16 } 0xF133 (raised .memOutOfRange 0xFFFF 0b00010#5 0x202#16) := by decide +kernel
/-- M20. -/
theorem test_storeRegs : steps (atIndex 0x400#16 [9#8, 9#8, 9#8, 9#8] (start [(0x0#4, 1#8), (0x1#4, 2#8), (0x2#4, 3#8), (0x3#4, 4#8)])) 0xF255
    (fun t => quiet 0x202#16 t && bytes t 0x400 4 == [1#8, 2#8, 3#8, 9#8] && t.i == 0x400#16) := by decide +kernel
/-- M22. -/
theorem test_storeRegs_rejected : steps (atIndex 0xFFF#16 [9#8] (start [(0x0#4, 0xAB#8), (0x1#4, 0xCD#8)])) 0xF155
    (fun t => raised .memOutOfRange 0x1000 0b00010#5 0x202#16 t && bytes t 0xFFF 1 == [9#8]) := by decide +kernel
/-- M25. -/
theorem test_loadRegs : steps (atIndex 0x400#16 [9#8, 8#8, 7#8, 6#8] (start [(0x3#4, 0x33#8)])) 0xF265
    (fun t => quiet 0x202#16 t && [t.getV 0#4, t.getV 1#4, t.getV 2#4, t.getV 3#4] == [9#8, 8#8, 7#8, 0x33#8] && t.i == 0x400#16) := by
  decide +kernel
/-- M27, M28. -/
theorem test_loadRegs_rejected : steps { start [(0x0#4, 5#8), (0x1#4, 6#8)] with i := 0xFFF#16 } 0xF165
    (fun t => raised .memOutOfRange 0x1000 0b00010#5 0x202#16 t && t.getV 0#4 == 5#8 && t.getV 1#4 == 6#8) &&
    steps { start [] with i := 0x050#16 } 0xF065 (fun t => t.getV 0#4 == 0xF0#8) := by decide +kernel

/-! ### The display -/

/-- G1. -/
theorem test_cls : steps { withPixels [(0, 0), (63, 31)] (start [(regF, 3#8)]) with dirty := false } 0x00E0
    (fun t => quiet 0x202#16 t && pixelsOf t == [] && t.dirty && t.getV regF == 3#8) := by decide +kernel
/-- G4: one collision; a pixel under a 0 bit is untouched. -/
theorem test_drw_collision : steps (withPixels [(3, 0), (4, 0)] (atIndex 0x300#16 [0xF0#8] (start []))) 0xD011
    (fun t => quiet 0x202#16 t && pixelsOf t == [(0, 0), (1, 0), (2, 0), (4, 0)] && t.getV regF == 1#8) := by decide +kernel
/-- G14: the glyph of 1, wrapped at both edges. -/
theorem test_drw_wraps : steps { start [(0x1#4, 62#8), (0x2#4, 30#8)] with i := 0x055#16 } 0xD125
    (fun t => pixelsOf t == [(0, 0), (0, 1), (0, 2), (1, 2), (63, 2), (0, 30), (0, 31), (63, 31)] && t.getV regF == 0#8) := by decide +kernel

/-! ### Keys, timers, random -/

/-- K1, K2, K5: `SKP` under given snapshots. -/
theorem test_skp : ((start [(0x1#4, 5#8)]).skipIfDown 0x0020#16 0x1#4).pc = 0x204#16 ∧
    ((start [(0x1#4, 5#8)]).skipIfDown 0xFFDF#16 0x1#4).pc = 0x202#16 ∧
    ((start [(0x1#4, 0x15#8)]).skipIfDown 0xFFFF#16 0x1#4).pc = 0x202#16 := by decide
/-- K3, K4, K6: `SKNP` under given snapshots. -/
theorem test_sknp : ((start [(0x1#4, 5#8)]).skipIfUp 0x0020#16 0x1#4).pc = 0x202#16 ∧
    ((start [(0x1#4, 5#8)]).skipIfUp 0x0000#16 0x1#4).pc = 0x204#16 ∧
    ((start [(0x1#4, 0x15#8)]).skipIfUp 0xFFFF#16 0x1#4).pc = 0x204#16 := by decide
/-- K7: no key is down, and nothing changes. -/
theorem test_waitKey_none : (start [(0x1#4, 9#8)]).takeKey 0x0000#16 0x1#4 = start [(0x1#4, 9#8)] := by decide +kernel
/-- K8. -/
theorem test_waitKey : ((start [(0x1#4, 9#8)]).takeKey 0x0090#16 0x1#4).getV 0x1#4 = 4#8 ∧
    ((start [(0x1#4, 9#8)]).takeKey 0x0090#16 0x1#4).pc = 0x202#16 := by decide +kernel
/-- K9, K10: the highest key and the lowest. -/
theorem test_leastKey : leastKey 0x8000#16 = 15 ∧ leastKey 0x0001#16 = 0 := by decide
/-- K11. -/
theorem test_getDt : steps { start [] with dt := 0x2A#8 } 0xF107
    (fun t => quiet 0x202#16 t && t.getV 0x1#4 == 0x2A#8 && t.dt == 0x2A#8) := by decide +kernel
/-- K13. -/
theorem test_setDt : steps (start [(0x1#4, 0x3C#8)]) 0xF115 (fun t => quiet 0x202#16 t && t.dt == 0x3C#8 && t.st == 0#8) := by decide +kernel
/-- K15. -/
theorem test_setSt : steps (start [(0x1#4, 0x3C#8)]) 0xF118
    (fun t => quiet 0x202#16 t && t.st == 0x3C#8 && t.soundOn && t.dt == 0#8) := by decide +kernel
/-- K16, K18, K19. -/
theorem test_rnd : ((start []).takeRandom 0xA7#8 0x1#4 0x0F#8).getV 0x1#4 = 0x07#8 ∧
    ((start []).takeRandom 0x5C#8 0x1#4 0xFF#8).getV 0x1#4 = 0x5C#8 ∧
    ((start []).takeRandom 0xFF#8 regF 0x0F#8).getV regF = 0x0F#8 := by decide
/-- K17: whatever `RAND`. -/
theorem test_rnd_mask_zero : steps (start [(0x1#4, 9#8)]) 0xC100 (fun t => quiet 0x202#16 t && t.randIndex == 1 && t.keyIndex == 0) := by
  decide +kernel

/-! ### The step cycle, tick, load -/

/-- H1, H2, H3. -/
theorem test_tick : tickTimer 3#8 = 2#8 ∧ tickTimer 1#8 = 0#8 ∧ tickTimer 0#8 = 0#8 ∧ tickTimer 255#8 = 254#8 := by decide
/-- H9. -/
theorem test_load : ends (launch [0x12#8, 0x34#8, 0x56#8] [.step])
    (fun t => quiet 0x234#16 t && bytes t 0x200 3 == [0x12#8, 0x34#8, 0x56#8]) := by decide +kernel
/-- R57: no second `load`, none after a step, and no step before it; a tick may come first. -/
theorem test_host_order : refuses (launch [0x12#8, 0x00#8] [.load [0x12#8]]) .outOfOrder &&
    refuses (launch [0x12#8, 0x00#8] [.step, .load [0x12#8]]) .outOfOrder && refuses (fireAll .constructed [.step] State.reset) .outOfOrder &&
    refuses (fireAll .constructed [.tick, .present, .step] State.reset) .outOfOrder &&
    refuses (launch [0x12#8, 0x00#8] [.reset, .step]) .outOfOrder &&
    ends (fireAll .constructed [.tick, .load [0x12#8, 0x00#8], .step] State.reset) (quiet 0x200#16) := by decide +kernel
/-- H8: a later construction; the places in the free inputs go on (log entries 3 and 4). -/
theorem test_reset : ends (fire .reset { start [(0x1#4, 7#8)] with halted := true, err := 0b01001#5, keyIndex := 2, randIndex := 3 })
    (fun t => t.pc == 0x200#16 && t.err == 0b00000#5 && !t.halted && t.getV 0x1#4 == 0#8 && t.keyIndex == 2 && t.randIndex == 3) := by
  decide +kernel
/-- H12. -/
theorem test_fetch_at_last_byte : ends (step { start [] with pc := 0xFFF#16 })
    (fun t => t.report == some ⟨.fetchOutOfRange, 0xFFF#16, 0xFFF⟩ && t.err == 0b10000#5 && t.pc == 0xFFF#16 && t.halted) := by
  decide +kernel
/-- H13. -/
theorem test_fetch_past_memory : ends (step { start [] with pc := 0x1000#16 })
    (fun t => t.report == some ⟨.fetchOutOfRange, 0x1000#16, 0x1000⟩ && t.err == 0b10000#5 && t.pc == 0x1000#16 && t.halted) := by
  decide +kernel
/-- H14. -/
theorem test_fetch_last_word : steps { start [] with pc := 0xFFE#16 } 0x6007 (fun t => quiet 0x1000#16 t && t.getV 0x0#4 == 7#8) := by
  decide +kernel

/-! ### Witnesses: the hypotheses of the statements can be met -/

/-- A state with one byte written at 0x300 and `I` there. -/
def stored : State := atIndex 0x300#16 [9#8] (start [(0x1#4, 156#8)])

theorem witness_CallPushesReturnAddress : State.reset.sp.val < 16 ∧ (withStack (List.replicate 15 0x202#16) State.reset).sp.val < 16 ∧
    (withStack (List.replicate 15 0x202#16) State.reset).sp.val = 15 := by decide
theorem witness_CallOnFullStackHalts : (withStack (List.replicate 16 0x202#16) State.reset).sp.val = 16 := by decide
theorem witness_ReturnPopsIntoPc : 0 < (withStack [0x202#16] State.reset).sp.val ∧
    0 < (withStack (List.replicate 16 0x202#16) State.reset).sp.val := by decide
theorem witness_ReturnOnEmptyStackHalts : State.reset.sp.val = 0 := by decide
/-- A subroutine that calls and returns itself: it leaves a dead entry behind, and the entries in use as it found them (T8). -/
theorem witness_ReturnResumesAfterCall : let s := withStack [0x202#16] State.reset
    s.sp.val < 16 ∧ 0 < s.sp.val ∧
    ends (exec (.call 0x300#12) s) (fun t => ends (exec (.call 0x400#12) t) fun t' => ends (exec .ret t') fun u =>
      u.sp == t.sp && u.stack[0] == t.stack[0] && u.stack[1] == t.stack[1] && u.stack[2] != t.stack[2]) = true := by decide +kernel
/-- The two ALU statements that tell the destination, `VF` and another register apart. -/
theorem witness_registers_apart : (0x1#4 : Reg) ≠ regF ∧ (0x2#4 : Reg) ≠ 0x1#4 ∧ (0x2#4 : Reg) ≠ regF := by decide
theorem witness_DecimalDigitsStored : ({ State.reset with i := 0xFFD#16 } : State).i.toNat + 2 < 4096 := by decide
theorem witness_RegistersStoredAtI : ({ State.reset with i := 0xFF0#16 } : State).i.toNat + (0xF#4).toNat < 4096 ∧
    ({ State.reset with i := 0xFFF#16 } : State).i.toNat + (0x0#4).toNat < 4096 := by decide
theorem witness_RegistersLoadedFromI : ({ State.reset with i := 0xFF0#16 } : State).i.toNat + (0xF#4).toNat < 4096 ∧
    ({ State.reset with i := 0xFFF#16 } : State).i.toNat + (0x0#4).toNat < 4096 := by decide
/-- Each of the four instructions at the first `I` it is rejected at, and at the last there is. -/
theorem witness_AccessOutOfRangeRejected :
    ∀ q ∈ [(0xFFF#16, (Instr.drw 0x0#4 0x1#4 0x2#4, 2)), (0xFFE#16, (Instr.bcd 0x1#4, 3)), (0xFF1#16, (Instr.storeRegs 0xF#4, 16)),
        (0xFFF#16, (Instr.loadRegs 0x1#4, 2)), (0xFFFF#16, (Instr.drw 0x0#4 0x1#4 0x1#4, 1)), (0xFFFF#16, (Instr.loadRegs 0x0#4, 1))],
      1 ≤ q.2.2 ∧ 4096 ≤ ({ State.reset with i := q.1 } : State).i.toNat + q.2.2 - 1 := by decide
theorem witness_AccessOutOfRangeRejected_listed :
    (Instr.drw 0x0#4 0x1#4 0x2#4, 2) ∈ [(Instr.drw 0x0#4 0x1#4 0x2#4, (0x2#4).toNat), (Instr.bcd 0x0#4, 3),
      (Instr.storeRegs 0x0#4, (0x0#4).toNat + 1), (Instr.loadRegs 0x0#4, (0x0#4).toNat + 1)] := by decide
theorem witness_DrawXorsSprite : ((0x0#4).toNat = 0 ∨ ({ State.reset with i := 0xFFFF#16 } : State).i.toNat + (0x0#4).toNat ≤ 4096) ∧
    ((0xF#4).toNat = 0 ∨ ({ State.reset with i := 0xFF1#16 } : State).i.toNat + (0xF#4).toNat ≤ 4096) := by decide
/-- A draw whose coordinates are not in `VF` leaves them as they are. -/
theorem witness_DrawTwiceRestoresScreen :
    ((0x5#4).toNat = 0 ∨ ({ State.reset with i := 0x050#16 } : State).i.toNat + (0x5#4).toNat ≤ 4096) ∧
    ends (exec (.drw 0x0#4 0x1#4 0x5#4) { State.reset with i := 0x050#16 })
      (fun t => t.getV 0x0#4 == State.reset.getV 0x0#4 && t.getV 0x1#4 == State.reset.getV 0x1#4) = true := by decide +kernel
theorem witness_UnrecognizedWordsReported : decode 0x8128#16 = .unimpl 0x8128#16 ∧ unrecognized 0x8128#16 = true ∧
    unrecognized 0x812E#16 = false := by decide
theorem witness_OpcodeMapSelectsOneRow : Instr.cls.mask ≠ 0x0000#16 ∧ 0x0AE0#16 &&& Instr.cls.mask = Instr.cls.pattern := by decide
theorem witness_DecodeOfEncode : (Instr.unimpl 0xFFFF#16).wellFormed = true ∧ (Instr.drw 0xF#4 0xF#4 0xF#4).wellFormed = true := by decide
theorem witness_ByteReadsBackAsWritten : 4095 < 4096 ∧ 4096 ≤ 4096 ∧ (4094 : Nat) ≠ 4095 := by decide
/-- A write that lists a byte, and one that takes it out of the list again. -/
theorem witness_MemoryFormIsCanonical : Memory.wf State.reset.mem = true ∧ Memory.writeByte State.reset.mem 0x050 9#8 = some [(0x050, 9#8)] ∧
    Memory.wf [(0x050, 9#8)] = true ∧ Memory.writeByte [(0x050, 9#8)] 0x050 0xF0#8 = some [] := by decide
theorem witness_InstructionsAreTwoBytes : 2 ≤ [0x12#8, 0x34#8, 0x56#8].length ∧ [0x12#8].length < 2 ∧ ([] : List Byte).length < 2 := by decide
theorem witness_FetchIsBigEndian : ({ State.reset with pc := 0xFFE#16 } : State).pc.toNat < 4095 := by decide
/-- The block of three bytes holds both bytes of the next instruction, the second or none of them, the block of one byte the first. -/
theorem witness_StoreSeenByNextFetch : State.reset.pc.toNat + 3 < 4096 ∧
    (∀ i ∈ [0x202, 0x201, 0x200, 0x300], i + 3 ≤ 4096) ∧
    steps { start [(0x1#4, 156#8)] with i := 0x202#16 } 0xF133 (fun t => t.fetch == some 0x0105#16) ∧
    steps { start [(0x0#4, 0x61#8)] with i := 0x202#16, mem := (Memory.writeBlock [] 0x202 [0x60#8, 0x07#8]).getD [] } 0xF055
      (fun t => t.fetch == some 0x6107#16) ∧
    steps { start [(0x0#4, 0x08#8)] with i := 0x203#16, mem := (Memory.writeBlock [] 0x202 [0x60#8, 0x07#8]).getD [] } 0xF055
      (fun t => t.fetch == some 0x6008#16) := by decide +kernel
theorem witness_StoreSeenByNextFetch_bounds : ({ State.reset with i := 0xFFD#16 } : State).i.toNat + 3 ≤ 4096 ∧
    ({ State.reset with pc := 0xFFC#16 } : State).pc.toNat + 3 < 4096 := by decide
/-- A known instruction stands at `PC`. -/
theorem witness_StepRunsDecodedInstruction : let s := State.reset.withFetchWord 16 0x1ABC
    s.halted = false ∧ s.pc.toNat < 4095 ∧
    decodeBytes [Memory.byteAt s.mem s.pc.toNat, Memory.byteAt s.mem (s.pc.toNat + 1)] = .ok (.jp 0xABC#12, []) := by decide +kernel
theorem witness_FetchOutOfRangeHalts : ({ State.reset with pc := 0xFFF#16 } : State).halted = false ∧
    4095 ≤ ({ State.reset with pc := 0xFFF#16 } : State).pc.toNat := by decide
theorem witness_HaltedStepsChangeNothing : ({ State.reset with halted := true } : State).halted = true := by decide
/-- A step with no report, one with a recoverable and one with a fatal condition. -/
theorem witness_ReportAgreesWithStatus :
    steps State.reset 0x6012 (fun t => t.report == none) && steps State.reset 0x0000 (fun t => t.report.isSome && !t.halted) &&
    steps State.reset 0x00EE (fun t => t.report.isSome && t.halted) := by decide +kernel
/-- Each transition but `reset`, from a halted state with a bit of `ERR` set. -/
theorem witness_StatusIsSticky : ∀ tr ∈ [Transition.step, .tick, .present, .load [0x12#8]],
    tr ≠ .reset ∧ ends (fire tr { State.reset with halted := true, err := 0b01000#5 }) (fun _ => true) = true := by decide +kernel
/-- A store of each kind that changes the byte at 0x300. -/
theorem witness_OnlyStoresWriteMemory : ∀ w ∈ [0xF133, 0xF155],
    steps stored w (fun t => Memory.byteAt t.mem 0x300 != Memory.byteAt (stored.withFetchWord 16 w).mem 0x300) = true := by decide +kernel
/-- A step that changes the screen, and one that starts with `DIRTY` set. -/
theorem witness_OnlyClearAndDrawWriteScreen :
    steps { State.reset with i := 0x050#16 } 0xD011 (fun t => getPixel t.fb 0 0 != getPixel State.reset.fb 0 0) && State.reset.dirty &&
    steps State.reset 0x6012 (fun t => t.getV 0x0#4 == 0x12#8) := by decide +kernel
theorem witness_StepsDoNotCountTimersDown : steps { State.reset with dt := 5#8 } 0x6012 (fun t => t.dt == 5#8) &&
    steps { start [(0x1#4, 7#8)] with dt := 5#8 } 0xF115 (fun t => t.dt == 7#8) &&
    steps { start [(0x1#4, 7#8)] with st := 5#8 } 0xF118 (fun t => t.st == 7#8) := by decide +kernel
/-- A `DRW` that is rejected, and reports so, with a value in `VF` that is no flag. -/
theorem witness_RegisterWritesAreNamed_rejected : ends (exec (.drw 0x0#4 0x1#4 0x2#4) { start [(regF, 5#8)] with i := 0xFFF#16 })
    (fun t => raised .memOutOfRange 0x1000 0b00010#5 0x202#16 t && t.getV regF == 5#8) = true := by decide +kernel
/-- A register that is not named, `VF` under an instruction that writes it as a flag, and one that does not. -/
theorem witness_RegisterWritesAreNamed : (Instr.addReg 0x1#4 0x2#4).writesReg 0x3#4 = false ∧ (0x3#4 : Reg) ≠ regF ∧
    (Instr.addReg 0x1#4 0x2#4).writesFlag = true ∧ (Instr.ldImm 0x1#4 0x00#8).writesReg regF = false ∧
    (Instr.ldImm 0x1#4 0x00#8).writesFlag = false ∧ ends (exec (.addReg 0x1#4 0x2#4) State.reset) (fun _ => true) = true ∧
    ends (exec (.ldImm 0x1#4 0x00#8) State.reset) (fun _ => true) = true := by decide
theorem witness_DefaultAdvanceIsTwo : (Instr.cls).movesPc = false ∧ (Instr.skp 0x1#4).skips = true ∧
    (∃ t, exec .cls State.reset = .next t) ∧ (∃ t, exec (.skp 0x1#4) State.reset = .next t) ∧
    ∃ t, exec (.waitKey 0x1#4) State.reset = .next t := ⟨rfl, rfl, ⟨_, rfl⟩, ⟨_, rfl⟩, ⟨_, rfl⟩⟩
theorem witness_SelfJumpIsFixedPoint : let s := State.reset.withFetchWord 16 0x1200
    s.halted = false ∧ s.report = none ∧ s.pc.toNat = (0x200#12).toNat ∧ s.fetch = some (0x1#4 ++ 0x200#12) := by decide +kernel
/-- The first and last glyph bytes, and the bytes beside the glyphs. -/
theorem witness_ResetValues : 0 < 80 ∧ 79 < 80 ∧ (0x04F < 0x050 ∨ 0x0A0 ≤ 0x04F) ∧ (0x0A0 < 0x050 ∨ 0x0A0 ≤ 0x0A0) := by decide
/-- The invariant holds at reset, and every transition can be fired there. -/
theorem witness_EveryTransitionKeepsInvariant : State.reset.Inv ∧ ∀ tr ∈ [Transition.reset, .load [0x12#8, 0x00#8], .tick, .present],
    ends (fire tr State.reset) (fun _ => true) = true := ⟨⟨by decide, by decide, by decide, by decide⟩, by decide +kernel⟩
/-- The invariant holds in a halted state with the stack full, and a step can be taken there and where an instruction stands. -/
theorem witness_EveryTransitionKeepsInvariant_step :
    State.Inv { withStack (List.replicate 16 0x1000#16) State.reset with pc := 0x10FE#16, halted := true, err := 0b00101#5 } ∧
    ends (fire .step { withStack (List.replicate 16 0x1000#16) State.reset with pc := 0x10FE#16, halted := true, err := 0b00101#5 })
      (fun _ => true) = true ∧
    State.Inv (State.reset.withFetchWord 16 0x6012) ∧ ends (fire .step (State.reset.withFetchWord 16 0x6012)) (fun _ => true) = true :=
  ⟨⟨by decide, by decide, by decide, by decide⟩, by decide, ⟨by decide, by decide, by decide, by decide⟩, by decide⟩
theorem witness_LoadPlacesProgram : (List.replicate 3584 0x00#8).length ≤ 3584 ∧ 3584 < (List.replicate 3585 0x00#8).length ∧
    0 < (List.replicate 3584 0x00#8).length ∧ (0x1FF < 0x200 ∨ 0x200 + (List.replicate 3584 0x00#8).length ≤ 0x1FF) := by
  simp only [List.length_replicate]; decide
/-- A run of a loaded program with a store that changes a byte, ticks and presents among its steps, and no new construction. -/
theorem witness_HostLoadsOnce : Transition.reset ∉ [Transition.tick, .step, .present] ∧
    ends (fireAll .loaded [.tick, .step, .present] (stored.withFetchWord 16 0xF133))
      (fun t => Memory.byteAt t.mem 0x300 != Memory.byteAt (stored.withFetchWord 16 0xF133).mem 0x300) = true := by decide +kernel
/-- Ticks and presents before the `load`, a program of the greatest length, and a run from a construction with its one `load`. -/
theorem witness_HostLoadsOnce_order : OnlyTicksAndPresents [.tick, .present] ∧ (List.replicate 3584 0x00#8).length ≤ 3584 ∧
    Transition.reset ∉ [Transition.tick, .load [0x12#8, 0x00#8], .step] ∧
    ends (fireAll .constructed [.tick, .load [0x12#8, 0x00#8], .step] State.reset) (fun _ => true) = true ∧
    ends (fireAll .constructed [.present] State.reset) (fun _ => true) = true :=
  ⟨by simp [OnlyTicksAndPresents], by simp only [List.length_replicate]; decide, by decide, by decide +kernel, by decide +kernel⟩

end Sys2Proof.Tests
end

section
/-! PROOFS. Byte access to memory (20_memory.md R41, R42). -/

namespace Sys2Proof.Machine

/-! ### What each byte access answers -/

theorem readByte_eq (m : List Host.Cell) (a : Nat) :
    Memory.readByte m a = if a < 4096 then some (Memory.byteAt m a) else none := rfl

theorem writeByte_of_ge {a : Nat} (h : 4096 ≤ a) (m : List Host.Cell) (v : Byte) : Memory.writeByte m a v = none :=
  if_neg (Nat.not_lt.2 h)

theorem writeByte_of_lt {a : Nat} (h : a < 4096) (m : List Host.Cell) (v : Byte) :
    Memory.writeByte m a v = some (Memory.set a v m) := if_pos h

/-! ### Reading after a write inside memory -/

theorem readByte_set_self {a : Nat} (h : a < 4096) (m : List Host.Cell) (v : Byte) :
    Memory.readByte (Memory.set a v m) a = some v := by
  rw [readByte_eq, if_pos h, byteAt_set, if_pos rfl]

theorem readByte_set_ne {a b : Nat} (h : b ≠ a) (m : List Host.Cell) (v : Byte) :
    Memory.readByte (Memory.set a v m) b = Memory.readByte m b := by
  rw [readByte_eq, readByte_eq, byteAt_set, if_neg h]

/-- Settles O37: inside memory a write answers `Memory.set`, whose reads the two lemmas above give; outside it answers nothing. -/
theorem byteReadsBackAsWritten : Obligations.ByteReadsBackAsWritten := fun m a v =>
  ⟨readByte_eq m a, fun h => writeByte_of_ge h m v, fun h =>
    ⟨Memory.set a v m, writeByte_of_lt h m v, readByte_set_self h m v, fun _ hb => readByte_set_ne hb m v⟩⟩

end Sys2Proof.Machine
end

section
/-! PROOFS. The jump `JP NNN` (40_control_flow.md R82). -/

namespace Sys2Proof

/-- The class 0x1 alone selects `JP`, and the other twelve bits are its address (R65, R66). -/
theorem decode_wordNNN_jp (nnn : Addr12) : decode (wordNNN 0x1#4 nnn) = .jp nnn := by simp [decode]

end Sys2Proof

namespace Sys2Proof.Machine

theorem exec_jp (nnn : Addr12) (s : State) : exec (.jp nnn) s = .next (s.jump (zextAddr nnn)) := rfl

/-- An address field names the same number as a 16-bit address: no bit is lost and none is masked. -/
@[simp] theorem toNat_zextAddr (nnn : Addr12) : (zextAddr nnn).toNat = nnn.toNat :=
  BitVec.toNat_setWidth_of_le (by decide)

/-- A jump leaves everything but `PC` as it was. -/
theorem jump_keeps (s : State) (a : Addr) : KeepsRegs s (s.jump a) ∧ (s.jump a).i = s.i ∧ KeepsRest s (s.jump a) :=
  ⟨fun x => getV_jump s a x, State.jump_i s a,
    keepsRest_of_eq rfl rfl rfl rfl rfl rfl rfl rfl rfl rfl rfl rfl⟩

/-- Settles O1: the word decodes by its class, and the step is `State.jump` to the zero-extended address, which keeps the rest. -/
theorem jumpSetsPc : Obligations.JumpSetsPc := fun nnn =>
  ⟨decode_wordNNN_jp nnn, fun s =>
    ⟨s.jump (zextAddr nnn), exec_jp nnn s, toNat_zextAddr nnn, jump_keeps s (zextAddr nnn)⟩⟩

end Sys2Proof.Machine
end

section
/-! PROOFS. The presentation of the grid (60_exceptions.md R185). -/

namespace Sys2Proof.Machine

theorem view_eq_fb (s : State) : s.view = s.fb := rfl

theorem fire_present (s : State) : fire .present s = .next s.present := rfl

/-- The host reads in the grid it was handed what stays on the screen. -/
theorem getPixel_present (s : State) (x y : Nat) : getPixel s.present.fb x y = getPixel s.view x y := by
  rw [State.present_fb, view_eq_fb]

theorem present_keepsRegs (s : State) : KeepsRegs s s.present := keepsRegs_of_eq (State.present_v s)

theorem present_keepsMemory (s : State) : KeepsMemory s s.present := keepsMemory_of_eq (State.present_mem s)

theorem present_keepsStack (s : State) : KeepsStack s s.present := keepsStack_of_eq (State.present_sp s) (State.present_stack s)

theorem present_keepsTimers (s : State) : KeepsTimers s s.present := ⟨State.present_dt s, State.present_st s⟩

/-- A presentation halts nothing, raises nothing, and leaves the report output standing. -/
theorem present_keepsStatus (s : State) : KeepsStatus s s.present :=
  ⟨State.present_halted s, State.present_err s, State.present_report s⟩

theorem present_keepsInputs (s : State) : KeepsInputs s s.present := ⟨State.present_keyIndex s, State.present_randIndex s⟩

/-- Settles O56: the transition answers `State.present`, which clears `DIRTY` and keeps the grid the host is handed and all the rest. -/
theorem presentClearsDirty : Obligations.PresentClearsDirty := fun s =>
  ⟨view_eq_fb s, s.present, fire_present s, State.present_dirty s, getPixel_present s, State.present_pc s, present_keepsRegs s,
    State.present_i s, present_keepsMemory s, present_keepsStack s, present_keepsTimers s, present_keepsStatus s,
    present_keepsInputs s⟩

end Sys2Proof.Machine
end

section
/-! PROOFS. The decoder: the rows of the opcode map, the unrecognized words, and the encoder's inverse (30_encoding.md R60 to R68). -/

namespace Sys2Proof

/-! ### The words that select each row (R66) -/

@[simp] theorem decode_cls (x : Reg) : decode (wordXNN 0x0#4 x 0xE0#8) = .cls := by simp [decode, decodeClass0]
@[simp] theorem decode_ret (x : Reg) : decode (wordXNN 0x0#4 x 0xEE#8) = .ret := by simp [decode, decodeClass0]
@[simp] theorem decode_call (nnn : Addr12) : decode (wordNNN 0x2#4 nnn) = .call nnn := by simp [decode]
@[simp] theorem decode_seImm (x : Reg) (nn : Byte) : decode (wordXNN 0x3#4 x nn) = .seImm x nn := by simp [decode]
@[simp] theorem decode_sneImm (x : Reg) (nn : Byte) : decode (wordXNN 0x4#4 x nn) = .sneImm x nn := by simp [decode]
@[simp] theorem decode_seReg (x y : Reg) (n : Nibble) : decode (wordXYN 0x5#4 x y n) = .seReg x y := by simp [decode]
@[simp] theorem decode_ldImm (x : Reg) (nn : Byte) : decode (wordXNN 0x6#4 x nn) = .ldImm x nn := by simp [decode]
@[simp] theorem decode_addImm (x : Reg) (nn : Byte) : decode (wordXNN 0x7#4 x nn) = .addImm x nn := by simp [decode]
@[simp] theorem decode_ldReg (x y : Reg) : decode (wordXYN 0x8#4 x y 0x0#4) = .ldReg x y := by simp [decode, decodeClass8]
@[simp] theorem decode_orReg (x y : Reg) : decode (wordXYN 0x8#4 x y 0x1#4) = .orReg x y := by simp [decode, decodeClass8]
@[simp] theorem decode_andReg (x y : Reg) : decode (wordXYN 0x8#4 x y 0x2#4) = .andReg x y := by simp [decode, decodeClass8]
@[simp] theorem decode_xorReg (x y : Reg) : decode (wordXYN 0x8#4 x y 0x3#4) = .xorReg x y := by simp [decode, decodeClass8]
@[simp] theorem decode_addReg (x y : Reg) : decode (wordXYN 0x8#4 x y 0x4#4) = .addReg x y := by simp [decode, decodeClass8]
@[simp] theorem decode_subReg (x y : Reg) : decode (wordXYN 0x8#4 x y 0x5#4) = .subReg x y := by simp [decode, decodeClass8]
@[simp] theorem decode_shrReg (x y : Reg) : decode (wordXYN 0x8#4 x y 0x6#4) = .shrReg x y := by simp [decode, decodeClass8]
@[simp] theorem decode_subnReg (x y : Reg) : decode (wordXYN 0x8#4 x y 0x7#4) = .subnReg x y := by simp [decode, decodeClass8]
@[simp] theorem decode_shlReg (x y : Reg) : decode (wordXYN 0x8#4 x y 0xE#4) = .shlReg x y := by simp [decode, decodeClass8]
@[simp] theorem decode_sneReg (x y : Reg) (n : Nibble) : decode (wordXYN 0x9#4 x y n) = .sneReg x y := by simp [decode]
@[simp] theorem decode_ldI (nnn : Addr12) : decode (wordNNN 0xA#4 nnn) = .ldI nnn := by simp [decode]
@[simp] theorem decode_jpV0 (nnn : Addr12) : decode (wordNNN 0xB#4 nnn) = .jpV0 nnn := by simp [decode]
@[simp] theorem decode_rnd (x : Reg) (nn : Byte) : decode (wordXNN 0xC#4 x nn) = .rnd x nn := by simp [decode]
@[simp] theorem decode_drw (x y : Reg) (n : Nibble) : decode (wordXYN 0xD#4 x y n) = .drw x y n := by simp [decode]
@[simp] theorem decode_skp (x : Reg) : decode (wordXNN 0xE#4 x 0x9E#8) = .skp x := by simp [decode, decodeClassE]
@[simp] theorem decode_sknp (x : Reg) : decode (wordXNN 0xE#4 x 0xA1#8) = .sknp x := by simp [decode, decodeClassE]
@[simp] theorem decode_getDt (x : Reg) : decode (wordXNN 0xF#4 x 0x07#8) = .getDt x := by simp [decode, decodeClassF]
@[simp] theorem decode_waitKey (x : Reg) : decode (wordXNN 0xF#4 x 0x0A#8) = .waitKey x := by simp [decode, decodeClassF]
@[simp] theorem decode_setDt (x : Reg) : decode (wordXNN 0xF#4 x 0x15#8) = .setDt x := by simp [decode, decodeClassF]
@[simp] theorem decode_setSt (x : Reg) : decode (wordXNN 0xF#4 x 0x18#8) = .setSt x := by simp [decode, decodeClassF]
@[simp] theorem decode_addI (x : Reg) : decode (wordXNN 0xF#4 x 0x1E#8) = .addI x := by simp [decode, decodeClassF]
@[simp] theorem decode_glyph (x : Reg) : decode (wordXNN 0xF#4 x 0x29#8) = .glyph x := by simp [decode, decodeClassF]
@[simp] theorem decode_bcd (x : Reg) : decode (wordXNN 0xF#4 x 0x33#8) = .bcd x := by simp [decode, decodeClassF]
@[simp] theorem decode_storeRegs (x : Reg) : decode (wordXNN 0xF#4 x 0x55#8) = .storeRegs x := by simp [decode, decodeClassF]
@[simp] theorem decode_loadRegs (x : Reg) : decode (wordXNN 0xF#4 x 0x65#8) = .loadRegs x := by simp [decode, decodeClassF]

/-! ### A word under the masks of the opcode map (R66) -/

theorem word_of_fieldNN (op : Opcode) : wordXNN (opClass op) (fieldX op) (fieldNN op) = op := by
  apply BitVec.eq_of_getLsbD_eq
  intro j hj
  simp only [wordXNN, opClass, fieldX, fieldNN, BitVec.getLsbD_append, BitVec.getLsbD_extractLsb']
  interval_cases j <;> simp

theorem and_mask_class (op : Opcode) : op &&& 0xF000#16 = wordXYN (opClass op) 0x0#4 0x0#4 0x0#4 := by
  conv_lhs => rw [← word_of_fields op, wordXYN_and_class]

theorem and_mask_classN (op : Opcode) : op &&& 0xF00F#16 = wordXYN (opClass op) 0x0#4 0x0#4 (fieldN op) := by
  conv_lhs => rw [← word_of_fields op, wordXYN_and_sub]

theorem and_mask_classNN (op : Opcode) : op &&& 0xF0FF#16 = wordXNN (opClass op) 0x0#4 (fieldNN op) := by
  conv_lhs => rw [← word_of_fieldNN op, wordXNN_and_sub]

/-- The word matches the row of the instruction, which is not the default row (R66). -/
def FitsRow (op : Opcode) (i : Instr) : Prop := i.mask ≠ 0x0000#16 ∧ op &&& i.mask = i.pattern

theorem fitsRow_of_class {op : Opcode} {i : Instr} (hm : i.mask = 0xF000#16)
    (hp : wordXYN (opClass op) 0x0#4 0x0#4 0x0#4 = i.pattern) : FitsRow op i :=
  ⟨by rw [hm]; decide, by rw [hm, and_mask_class, hp]⟩

theorem fitsRow_of_classN {op : Opcode} {i : Instr} (hm : i.mask = 0xF00F#16)
    (hp : wordXYN (opClass op) 0x0#4 0x0#4 (fieldN op) = i.pattern) : FitsRow op i :=
  ⟨by rw [hm]; decide, by rw [hm, and_mask_classN, hp]⟩

theorem fitsRow_of_classNN {op : Opcode} {i : Instr} (hm : i.mask = 0xF0FF#16)
    (hp : wordXNN (opClass op) 0x0#4 (fieldNN op) = i.pattern) : FitsRow op i :=
  ⟨by rw [hm]; decide, by rw [hm, and_mask_classNN, hp]⟩

/-! ### The unrecognized set, by the fields the decoder dispatches on (R67) -/

theorem unrecognized_eq (op : Opcode) : unrecognized op =
    if opClass op = 0x0#4 then decide (fieldNN op ∉ [0xE0#8, 0xEE#8])
    else if opClass op = 0x8#4 then decide (fieldN op ∈ [0x8#4, 0x9#4, 0xA#4, 0xB#4, 0xC#4, 0xD#4, 0xF#4])
    else if opClass op = 0xE#4 then decide (fieldNN op ∉ [0x9E#8, 0xA1#8])
    else if opClass op = 0xF#4 then
      decide (fieldNN op ∉ [0x07#8, 0x0A#8, 0x15#8, 0x18#8, 0x1E#8, 0x29#8, 0x33#8, 0x55#8, 0x65#8])
    else false := by
  simp [unrecognized, BitVec.toNat_eq, toNat_opClass, toNat_fieldNN, toNat_fieldN]

/-- A word is in the unrecognized set and `i` is its `UNIMPL`, or it is not and fits the row of `i`. -/
def DecodesTo (op : Opcode) (i : Instr) : Prop :=
  (unrecognized op = true ∧ i = .unimpl op) ∨ (unrecognized op = false ∧ FitsRow op i)

/-- The default branch of a dispatch on `N`: what is left in class 0x8. -/
theorem fieldN_unrecognized {n : Nibble} (h0 : n ≠ 0x0#4) (h1 : n ≠ 0x1#4) (h2 : n ≠ 0x2#4) (h3 : n ≠ 0x3#4) (h4 : n ≠ 0x4#4)
    (h5 : n ≠ 0x5#4) (h6 : n ≠ 0x6#4) (h7 : n ≠ 0x7#4) (hE : n ≠ 0xE#4) :
    n ∈ [0x8#4, 0x9#4, 0xA#4, 0xB#4, 0xC#4, 0xD#4, 0xF#4] := by
  revert n
  decide

theorem decodeClass0_spec {op : Opcode} (h : opClass op = 0x0#4) : DecodesTo op (decodeClass0 op) := by
  unfold decodeClass0
  split
  case h_3 hE0 hEE => exact .inl ⟨by simpa [unrecognized_eq, h] using ⟨hE0, hEE⟩, rfl⟩
  all_goals
    rename_i hnn
    exact .inr ⟨by simp [unrecognized_eq, h, hnn], fitsRow_of_classNN rfl (by rw [h, hnn]; rfl)⟩

theorem decodeClass8_spec {op : Opcode} (h : opClass op = 0x8#4) : DecodesTo op (decodeClass8 op) := by
  unfold decodeClass8
  split
  case h_10 h0 h1 h2 h3 h4 h5 h6 h7 hE =>
    have hn := fieldN_unrecognized h0 h1 h2 h3 h4 h5 h6 h7 hE
    exact .inl ⟨by simpa [unrecognized_eq, h] using hn, rfl⟩
  all_goals
    rename_i hn
    exact .inr ⟨by simp [unrecognized_eq, h, hn], fitsRow_of_classN rfl (by rw [h, hn]; rfl)⟩

theorem decodeClassE_spec {op : Opcode} (h : opClass op = 0xE#4) : DecodesTo op (decodeClassE op) := by
  unfold decodeClassE
  split
  case h_3 h9E hA1 => exact .inl ⟨by simpa [unrecognized_eq, h] using ⟨h9E, hA1⟩, rfl⟩
  all_goals
    rename_i hnn
    exact .inr ⟨by simp [unrecognized_eq, h, hnn], fitsRow_of_classNN rfl (by rw [h, hnn]; rfl)⟩

theorem decodeClassF_spec {op : Opcode} (h : opClass op = 0xF#4) : DecodesTo op (decodeClassF op) := by
  unfold decodeClassF
  split
  case h_10 h07 h0A h15 h18 h1E h29 h33 h55 h65 =>
    exact .inl ⟨by simpa [unrecognized_eq, h] using ⟨h07, h0A, h15, h18, h1E, h29, h33, h55, h65⟩, rfl⟩
  all_goals
    rename_i hnn
    exact .inr ⟨by simp [unrecognized_eq, h, hnn], fitsRow_of_classNN rfl (by rw [h, hnn]; rfl)⟩

/-- What the decoder answers for every word: `UNIMPL` of the word exactly on the unrecognized set, else an instruction whose row it fits. -/
theorem decode_spec (op : Opcode) : DecodesTo op (decode op) := by
  unfold decode
  split
  case h_1 h => exact decodeClass0_spec h
  case h_9 h => exact decodeClass8_spec h
  case h_15 h => exact decodeClassE_spec h
  case h_16 =>
    refine decodeClassF_spec ?_
    generalize opClass op = c at *
    revert c
    decide
  all_goals
    rename_i h
    exact .inr ⟨by simp [unrecognized_eq, h], fitsRow_of_class rfl (by rw [h]; rfl)⟩

/-! ### `UNIMPL` and the well-formed instructions (R67) -/

theorem not_fitsRow_unimpl (op op' : Opcode) : ¬ FitsRow op (.unimpl op') := fun h => h.1 rfl

theorem wellFormed_of_fitsRow {op : Opcode} {i : Instr} (h : FitsRow op i) : i.wellFormed = true := by
  cases i with
  | unimpl op' => exact absurd h (not_fitsRow_unimpl op op')
  | _ => rfl

theorem decode_eq_unimpl {op op' : Opcode} (h : decode op = .unimpl op') : unrecognized op = true ∧ op' = op := by
  rcases decode_spec op with ⟨hu, hd⟩ | ⟨-, hrow⟩
  · exact ⟨hu, Instr.unimpl.inj (h.symm.trans hd)⟩
  · exact absurd (h ▸ hrow) (not_fitsRow_unimpl op op')

theorem decode_of_unrecognized {op : Opcode} (h : unrecognized op = true) : decode op = .unimpl op := by
  rcases decode_spec op with ⟨-, hd⟩ | ⟨hu, -⟩
  · exact hd
  · rw [h] at hu
    cases hu

theorem wellFormed_decode (op : Opcode) : (decode op).wellFormed = true := by
  rcases decode_spec op with ⟨hu, hd⟩ | ⟨-, hrow⟩
  · rw [hd]
    exact hu
  · exact wellFormed_of_fitsRow hrow

theorem decode_encode (i : Instr) (h : i.wellFormed = true) : decode (encode i) = i := by
  cases i with
  | unimpl op => exact decode_of_unrecognized h
  | cls => rfl
  | ret => rfl
  | jp nnn => exact decode_wordNNN_jp nnn
  | _ => simp [encode]

/-- Settles O35: the fields of an encoded word read back, an unrecognized word is its own `UNIMPL`, and every other answer fits a row. -/
theorem decodeOfEncode : Obligations.DecodeOfEncode := ⟨decode_encode, wellFormed_decode⟩

/-! ### One row for each word (R65, R66) -/

/-- The mask of every row of a class (R66). -/
def classMask (c : BitVec 4) : Opcode :=
  if c = 0x0#4 ∨ c = 0xE#4 ∨ c = 0xF#4 then 0xF0FF#16 else if c = 0x8#4 then 0xF00F#16 else 0xF000#16

@[simp] theorem opClass_and_classMask (op : Opcode) (c : BitVec 4) : opClass (op &&& classMask c) = opClass op := by
  unfold classMask
  split_ifs <;> simp [and_mask_class, and_mask_classN, and_mask_classNN]

theorem fieldN_and_classMask (op : Opcode) : fieldN (op &&& classMask 0x8#4) = fieldN op := by
  simp [classMask, and_mask_classN]

theorem fieldNN_and_classMask (op : Opcode) {c : BitVec 4} (h : c = 0x0#4 ∨ c = 0xE#4 ∨ c = 0xF#4) :
    fieldNN (op &&& classMask c) = fieldNN op := by
  simp [classMask, h, and_mask_classNN]

/-- The decoder's dispatch looks at no bit outside the mask of the word's class (R68). -/
theorem unrecognized_and_classMask (op : Opcode) : unrecognized (op &&& classMask (opClass op)) = unrecognized op := by
  rw [unrecognized_eq, unrecognized_eq, opClass_and_classMask]
  split_ifs with h0 h8 hE hF
  · rw [fieldNN_and_classMask op (.inl h0)]
  · rw [h8, fieldN_and_classMask]
  · rw [fieldNN_and_classMask op (.inr (.inl hE))]
  · rw [fieldNN_and_classMask op (.inr (.inr hF))]
  · rfl

theorem mask_eq_classMask {i : Instr} (h : i.mask ≠ 0x0000#16) : i.mask = classMask (opClass i.pattern) := by
  cases i with
  | unimpl op => exact absurd rfl h
  | _ =>
    simp only [Instr.mask, Instr.pattern]
    decide

theorem unrecognized_pattern {i : Instr} (h : i.mask ≠ 0x0000#16) : unrecognized i.pattern = false := by
  cases i with
  | unimpl op => exact absurd rfl h
  | _ =>
    simp only [Instr.pattern]
    decide

/-- The mask of a row that a word fits is that of the word's class. -/
theorem mask_of_fitsRow {op : Opcode} {i : Instr} (h : FitsRow op i) : i.mask = classMask (opClass op) := by
  obtain ⟨hm, hp⟩ := h
  have hc : opClass i.pattern = opClass op := by rw [← hp, mask_eq_classMask hm, opClass_and_classMask]
  rw [mask_eq_classMask hm, hc]

theorem unrecognized_of_fitsRow {op : Opcode} {i : Instr} (h : FitsRow op i) : unrecognized op = false := by
  rw [← unrecognized_and_classMask, ← mask_of_fitsRow h, h.2]
  exact unrecognized_pattern h.1

theorem decode_fitsRow {op : Opcode} (h : unrecognized op = false) : FitsRow op (decode op) := by
  rcases decode_spec op with ⟨hu, -⟩ | ⟨-, hrow⟩
  · rw [h] at hu
    cases hu
  · exact hrow

theorem and_mask_decode (op : Opcode) : op &&& (decode op).mask = (decode op).pattern := by
  rcases decode_spec op with ⟨-, hd⟩ | ⟨-, hrow⟩
  · rw [hd]
    exact BitVec.and_zero
  · exact hrow.2

/-- Settles O34: a word that fits a row is recognized, the class then names the mask of both rows, and the mask the match. -/
theorem opcodeMapSelectsOneRow : Obligations.OpcodeMapSelectsOneRow := fun op =>
  ⟨and_mask_decode op, fun i hm hp => by
    have hrow : FitsRow op i := ⟨hm, hp⟩
    have hmask : (decode op).mask = i.mask :=
      (mask_of_fitsRow (decode_fitsRow (unrecognized_of_fitsRow hrow))).trans (mask_of_fitsRow hrow).symm
    exact ⟨hmask, by rw [← and_mask_decode, hmask, hp]⟩⟩

/-! ### Sequences of bytes (R60) -/

theorem toNat_assembleWord (hi lo : Byte) : (assembleWord hi lo).toNat = hi.toNat * 256 + lo.toNat := by
  rw [assembleWord, BitVec.toNat_append, ← Nat.shiftLeft_add_eq_or_of_lt lo.isLt, Nat.shiftLeft_eq]

/-- Settles O58: the three shapes of a list that the decoder tells apart. -/
theorem instructionsAreTwoBytes : Obligations.InstructionsAreTwoBytes
  | [] => ⟨fun h => absurd h (by decide), fun _ => rfl⟩
  | [_] => ⟨fun h => absurd h (by simp), fun _ => rfl⟩
  | hi :: lo :: rest => ⟨fun _ => ⟨assembleWord hi lo, toNat_assembleWord hi lo, rfl⟩, fun h => absurd h (by simp)⟩

/-- Settles O36: the words are literals, and the decoder evaluates on each. -/
theorem sampleWordsDecode : Obligations.SampleWordsDecode :=
  ⟨rfl, rfl, rfl, rfl, rfl, rfl, rfl, rfl, rfl, rfl, rfl, rfl, rfl, rfl, rfl, rfl, rfl⟩

end Sys2Proof

namespace Sys2Proof.Machine

/-! ### An unrecognized word (R171) -/

theorem exec_unimpl (op : Opcode) (s : State) : exec (.unimpl op) s = .next (s.raise .unimplementedInstruction op.toNat) := rfl

theorem unimpl_reported (op : Opcode) (s : State) : ∃ t, exec (.unimpl op) s = .next t ∧
    Reports s t .unimplementedInstruction op.toNat ∧ t.halted = s.halted ∧ PcAdvances s t 2 ∧
    KeepsRegs s t ∧ t.i = s.i ∧ KeepsMemory s t ∧ KeepsScreen s t ∧ KeepsStack s t ∧ KeepsTimers s t ∧ KeepsInputs s t := by
  obtain ⟨hh, hpc⟩ := raise_recoverable s op.toNat (c := .unimplementedInstruction) rfl
  exact ⟨_, exec_unimpl op s, reports_raise s _ _, hh, hpc, raise_keeps s _ _⟩

/-- Settles O33: the decoder's default rows are the unrecognized set, and their meaning is one recoverable `raise`. -/
theorem unrecognizedWordsReported : Obligations.UnrecognizedWordsReported := fun op =>
  ⟨⟨fun h => (decode_eq_unimpl h).1, decode_of_unrecognized⟩, fun _ h => (decode_eq_unimpl h).2, unimpl_reported op⟩

end Sys2Proof.Machine
end

section
/-! PROOFS. What one instruction can do: the few shapes of its next state, and what each shape does to each part of the state. -/

namespace Sys2Proof

/-- The one condition that an instruction can raise, if any (R171 to R174). -/
def Instr.condition : Instr → Option Machine.Condition
  | .ret => some .stackUnderflow
  | .call _ => some .stackOverflow
  | .drw _ _ _ | .bcd _ | .storeRegs _ | .loadRegs _ => some .memOutOfRange
  | .unimpl _ => some .unimplementedInstruction
  | _ => none

end Sys2Proof

namespace Sys2Proof.Machine

variable (s : State)

/-! ### What the larger updates leave in the registers and in `PC` -/

/-- A draw writes its collision into `VF` and no other register (R141). -/
theorem getV_draw (x0 y0 : Byte) (rows : List Byte) (k : Reg) : (s.draw x0 y0 rows).getV k =
    if k = regF then flagByte (drawSprite s.fb x0.toNat y0.toNat rows).2 else s.getV k := getV_setV _ regF k _

theorem getV_setRegBlock (bs : List Byte) (k : Reg) : (State.advance { s with v := setRegBlock s.v 0 bs }).getV k =
    if h : k.toNat < bs.length then bs[k.toNat] else s.getV k := by
  simp [State.getV, getElem_setRegBlock]

/-- The target of `JP V0` is the whole sum: sixteen bits hold it (R88). -/
theorem toNat_zextAddr_add_zextByte (nnn : Addr12) (b : Byte) : (zextAddr nnn + zextByte b).toNat = nnn.toNat + b.toNat := by
  have hn := nnn.isLt
  have hb := b.isLt
  rw [BitVec.toNat_add, toNat_zextAddr, zextByte, BitVec.toNat_setWidth]
  omega

/-! ### The shapes -/

/-- The next state `t` that an instruction can answer on `s`: its condition is raised, or one of the updates of the machine is made. -/
inductive Effect (s : State) : Instr → State → Prop
  | raise {i : Instr} {c : Condition} (info : Nat) (h : i.condition = some c) : Effect s i (s.raise c info)
  | clear : Effect s .cls (State.advance { s with fb := clearGrid, dirty := true })
  | draw (x y : Reg) (n : Nibble) (rows : List Byte) : Effect s (.drw x y n) (s.draw (s.getV x) (s.getV y) rows)
  | ret (h : 0 < s.sp.val) : Effect s .ret (State.jump { s with sp := ⟨s.sp.val - 1, by omega⟩ } s.stack[s.sp.val - 1])
  | call (nnn : Addr12) (h : s.sp.val < 16) : Effect s (.call nnn)
      (State.jump { s with stack := s.stack.set s.sp.val (s.pc + 2#16), sp := ⟨s.sp.val + 1, by omega⟩ } (zextAddr nnn))
  | jp (nnn : Addr12) : Effect s (.jp nnn) (s.jump (zextAddr nnn))
  | jpV0 (nnn : Addr12) : Effect s (.jpV0 nnn) (s.jump (zextAddr nnn + zextByte (s.getV 0x0#4)))
  | skip {i : Instr} (k : Nat) (c : Bool) (h : i.skips = true) : Effect s i (State.skipIf { s with keyIndex := k } c)
  | wait (x : Reg) (k : Nat) : Effect s (.waitKey x) { s with keyIndex := k }
  | result {i : Instr} {x : Reg} (k r : Nat) (b : Byte) (h : i.writesReg x = true) (hf : i.writesFlag = false) :
      Effect s i (State.result { s with keyIndex := k, randIndex := r } x b)
  | resultFlag {i : Instr} {x : Reg} (b : Byte) (f : Bool) (h : i.writesReg x = true) (hf : i.writesFlag = true) :
      Effect s i (s.resultFlag x b (flagByte f))
  | index {i : Instr} (a : Addr) (hf : i.writesFlag = false) : Effect s i (s.setIndex a)
  | setDt (x : Reg) : Effect s (.setDt x) (State.advance { s with dt := s.getV x })
  | setSt (x : Reg) : Effect s (.setSt x) (State.advance { s with st := s.getV x })
  | bcd (x : Reg) {m : List Host.Cell} (hm : Memory.writeBlock s.mem s.i.toNat (decimalDigits (s.getV x)) = some m) :
      Effect s (.bcd x) (State.advance { s with mem := m })
  | storeRegs (x : Reg) {m : List Host.Cell} (hm : Memory.writeBlock s.mem s.i.toNat (s.regBlock x) = some m) :
      Effect s (.storeRegs x) (State.advance { s with mem := m })
  | loadRegs (x : Reg) {bs : List Byte} (h : bs.length = x.toNat + 1) :
      Effect s (.loadRegs x) (State.advance { s with v := setRegBlock s.v 0 bs })

/-! ### Every instruction answers a next state of one of the shapes -/

theorem effect_ret (s : State) : ∃ t, exec .ret s = .next t ∧ Effect s .ret t := by
  rcases Nat.eq_zero_or_pos s.sp.val with h | h
  · exact ⟨_, exec_ret_of_empty s h, .raise 0 rfl⟩
  · exact ⟨_, exec_ret_of_pos s h, .ret h⟩

theorem effect_call (nnn : Addr12) (s : State) : ∃ t, exec (.call nnn) s = .next t ∧ Effect s (.call nnn) t := by
  rcases Nat.lt_or_ge s.sp.val 16 with h | h
  · exact ⟨_, exec_call_of_lt s nnn h, .call nnn h⟩
  · exact ⟨_, exec_call_of_full s nnn (by omega), .raise 0 rfl⟩

theorem effect_drw (x y : Reg) (n : Nibble) (s : State) : ∃ t, exec (.drw x y n) s = .next t ∧ Effect s (.drw x y n) t := by
  by_cases h : n.toNat = 0 ∨ s.i.toNat + n.toNat ≤ 4096
  · obtain ⟨rows, -, -, he⟩ := exec_drw_of_fits s x y n h
    exact ⟨_, he, .draw x y n rows⟩
  · exact ⟨_, exec_drw_of_exceeds s x y n (by omega) (by omega), .raise _ rfl⟩

theorem effect_loadRegs (x : Reg) (s : State) : ∃ t, exec (.loadRegs x) s = .next t ∧ Effect s (.loadRegs x) t := by
  rcases Nat.lt_or_ge (s.i.toNat + x.toNat) 4096 with h | h
  · obtain ⟨bs, hlen, -, he⟩ := exec_loadRegs_of_fits s x h
    exact ⟨_, he, .loadRegs x hlen⟩
  · exact ⟨_, exec_loadRegs_of_exceeds s x h, .raise _ rfl⟩

theorem exec_bcd (x : Reg) (s : State) : exec (.bcd x) s = .next (s.storeAtIndex (decimalDigits (s.getV x))) := rfl

theorem exec_storeRegs (x : Reg) (s : State) : exec (.storeRegs x) s = .next (s.storeAtIndex (s.regBlock x)) := rfl

theorem effect_bcd (x : Reg) (s : State) : ∃ t, exec (.bcd x) s = .next t ∧ Effect s (.bcd x) t := by
  refine ⟨_, exec_bcd x s, ?_⟩
  rcases storeAtIndex_cases s (decimalDigits (s.getV x)) with ⟨m, hm, he⟩ | ⟨-, -, he⟩ <;> rw [he]
  · exact .bcd x hm
  · exact .raise _ rfl

theorem effect_storeRegs (x : Reg) (s : State) : ∃ t, exec (.storeRegs x) s = .next t ∧ Effect s (.storeRegs x) t := by
  refine ⟨_, exec_storeRegs x s, ?_⟩
  rcases storeAtIndex_cases s (s.regBlock x) with ⟨m, hm, he⟩ | ⟨-, -, he⟩ <;> rw [he]
  · exact .storeRegs x hm
  · exact .raise _ rfl

theorem exec_waitKey (x : Reg) (s : State) : exec (.waitKey x) s = .next (s.keysRead.takeKey s.keys x) := rfl

theorem effect_waitKey (x : Reg) (s : State) : ∃ t, exec (.waitKey x) s = .next t ∧ Effect s (.waitKey x) t := by
  refine ⟨_, exec_waitKey x s, ?_⟩
  unfold State.takeKey
  split
  · exact .wait x _
  · exact .result (s.keyIndex + 1) s.randIndex _ (x := x) (by simp [Instr.writesReg]) rfl

/-- Every instruction answers a next state, and one of the shapes. -/
theorem exec_effect (i : Instr) (s : State) : ∃ t, exec i s = .next t ∧ Effect s i t := by
  cases i with
  | cls => exact ⟨_, rfl, .clear⟩
  | ret => exact effect_ret s
  | jp nnn => exact ⟨_, rfl, .jp nnn⟩
  | call nnn => exact effect_call nnn s
  | jpV0 nnn => exact ⟨_, rfl, .jpV0 nnn⟩
  | seImm x nn | sneImm x nn | seReg x y | sneReg x y => exact ⟨_, rfl, .skip s.keyIndex _ rfl⟩
  | skp x | sknp x => exact ⟨_, rfl, .skip (s.keyIndex + 1) _ rfl⟩
  | ldImm x nn | addImm x nn | ldReg x y | orReg x y | andReg x y | xorReg x y | getDt x =>
    exact ⟨_, rfl, .result s.keyIndex s.randIndex _ (x := x) (by simp [Instr.writesReg]) rfl⟩
  | rnd x nn => exact ⟨_, rfl, .result s.keyIndex (s.randIndex + 1) _ (x := x) (by simp [Instr.writesReg]) rfl⟩
  | waitKey x => exact effect_waitKey x s
  | addReg x y | subReg x y | shrReg x y | subnReg x y | shlReg x y =>
    exact ⟨_, rfl, .resultFlag _ _ (x := x) (by simp [Instr.writesReg]) rfl⟩
  | ldI nnn | addI x | glyph x => exact ⟨_, rfl, .index _ rfl⟩
  | drw x y n => exact effect_drw x y n s
  | setDt x => exact ⟨_, rfl, .setDt x⟩
  | setSt x => exact ⟨_, rfl, .setSt x⟩
  | bcd x => exact effect_bcd x s
  | storeRegs x => exact effect_storeRegs x s
  | loadRegs x => exact effect_loadRegs x s
  | unimpl op => exact ⟨_, rfl, .raise _ rfl⟩

theorem effect_of_exec {i : Instr} {s t : State} (h : exec i s = .next t) : Effect s i t := by
  obtain ⟨u, hu, he⟩ := exec_effect i s
  obtain rfl : u = t := Host.Outcome.next.inj (hu.symm.trans h)
  exact he

end Sys2Proof.Machine
end

section
/-! PROOFS. Rules about every instruction and every step: what each leaves alone, and the machine's invariant. -/

namespace Sys2Proof.Machine

variable {i : Instr} {s t : State}

/-! ### What each shape does to one part of the state -/

/-- Nothing is raised, or the next state is that of the instruction's own condition. -/
theorem Effect.status (h : Effect s i t) :
    KeepsStatus s t ∨ ∃ c info, i.condition = some c ∧ t = s.raise c info := by
  cases h with
  | raise info hc => exact .inr ⟨_, info, hc, rfl⟩
  | _ => exact .inl ⟨rfl, rfl, rfl⟩

theorem Effect.mem (h : Effect s i t) : t.mem = s.mem ∨ ∃ bs x, Memory.writeBlock s.mem s.i.toNat bs = some t.mem ∧
    ((i = .bcd x ∧ bs.length = 3) ∨ (i = .storeRegs x ∧ bs.length = x.toNat + 1)) := by
  cases h with
  | raise info hc => exact .inl (State.raise_mem ..)
  | bcd x hm => exact .inr ⟨_, x, hm, .inl ⟨rfl, rfl⟩⟩
  | storeRegs x hm => exact .inr ⟨_, x, hm, .inr ⟨rfl, length_regBlock s x⟩⟩
  | _ => exact .inl rfl

theorem Effect.screen (h : Effect s i t) :
    (t.fb = s.fb ∧ t.dirty = s.dirty) ∨ (t.dirty = true ∧ (i = .cls ∨ ∃ x y n, i = .drw x y n)) := by
  cases h with
  | raise info hc => exact .inl ⟨State.raise_fb .., State.raise_dirty ..⟩
  | clear => exact .inr ⟨rfl, .inl rfl⟩
  | draw x y n rows => exact .inr ⟨rfl, .inr ⟨x, y, n, rfl⟩⟩
  | _ => exact .inl ⟨rfl, rfl⟩

theorem Effect.dt (h : Effect s i t) : t.dt = s.dt ∨ ∃ x, i = .setDt x ∧ t.dt = s.getV x := by
  cases h with
  | raise info hc => exact .inl (State.raise_dt ..)
  | setDt x => exact .inr ⟨x, rfl, rfl⟩
  | _ => exact .inl rfl

theorem Effect.st (h : Effect s i t) : t.st = s.st ∨ ∃ x, i = .setSt x ∧ t.st = s.getV x := by
  cases h with
  | raise info hc => exact .inl (State.raise_st ..)
  | setSt x => exact .inr ⟨x, rfl, rfl⟩
  | _ => exact .inl rfl

/-- An entry in use stays as it was, or it is the return address that a call has pushed. -/
theorem Effect.stack (h : Effect s i t) (k : Nat) (hk : k < 16) (hu : k < t.sp.val) :
    (k < s.sp.val ∧ t.stack[k] = s.stack[k]) ∨ t.stack[k] = s.pc + 2#16 := by
  cases h with
  | raise info hc =>
    rw [State.raise_sp] at hu
    exact .inl ⟨hu, by simp⟩
  | ret hpos =>
    simp only [State.jump_sp] at hu
    exact .inl ⟨by omega, rfl⟩
  | call nnn hlt =>
    simp only [State.jump_sp] at hu
    simp only [State.jump_stack, Vector.getElem_set]
    split
    · exact .inr rfl
    · exact .inl ⟨by omega, rfl⟩
  | _ => exact .inl ⟨hu, rfl⟩

/-! ### The program counter (R80) -/

theorem movesPc_of_skips (h : i.skips = true) : i.movesPc = true := by
  cases i with
  | seImm | sneImm | seReg | sneReg | skp | sknp => rfl
  | _ => cases h

/-- An instruction with a fatal condition is a control transfer. -/
theorem recoverable_of_not_movesPc {c : Condition} (hm : i.movesPc = false) (hc : i.condition = some c) : c.fatal = false := by
  cases i with
  | drw | bcd | storeRegs | loadRegs | unimpl => cases hc; rfl
  | ret | call => cases hm
  | _ => cases hc

theorem condition_of_skips (h : i.skips = true) : i.condition = none := by
  cases i with
  | seImm | sneImm | seReg | sneReg | skp | sknp => rfl
  | _ => cases h

theorem Effect.pc_of_not_movesPc (h : Effect s i t) (hm : i.movesPc = false) : PcAdvances s t 2 := by
  cases h with
  | raise info hc => exact (raise_recoverable s info (recoverable_of_not_movesPc hm hc)).2
  | skip k c hs => rw [movesPc_of_skips hs] at hm; cases hm
  | ret | call | jp | jpV0 | wait => cases hm
  | _ => exact pcAdvances_two rfl

theorem Effect.pc_of_skips (h : Effect s i t) (hs : i.skips = true) : PcAdvances s t 2 ∨ PcAdvances s t 4 := by
  cases h with
  | raise info hc => rw [condition_of_skips hs] at hc; cases hc
  | skip k c _ =>
    cases c
    · exact .inl (pcAdvances_skipIf _ false)
    · exact .inr (pcAdvances_skipIf _ true)
  | ret | call | jp | jpV0 | wait => cases hs
  | _ => exact .inl (pcAdvances_two rfl)

theorem Effect.pc_of_waitKey {x : Reg} (h : Effect s (.waitKey x) t) : t.pc = s.pc ∨ PcAdvances s t 2 := by
  cases h with
  | raise info hc => cases hc
  | skip k c hs => cases hs
  | wait x k => exact .inl rfl
  | result | resultFlag | index => exact .inr (pcAdvances_two rfl)

/-- From a fetched instruction, `PC` stays in the range of R13: it moves on, or to an address field, a sum with `V[0]`, or an entry in use. -/
theorem Effect.pc_le (h : Effect s i t) (hpc : s.pc.toNat < 4095)
    (hst : ∀ (k : Nat) (hk : k < 16), k < s.sp.val → s.stack[k].toNat ≤ 0x1000) : t.pc.toNat ≤ 0x10FE := by
  have hadd : ∀ n ∈ [2#16, 4#16], (s.pc + n).toNat ≤ 0x10FE := by simp; omega
  cases h with
  | raise info hc =>
    rw [State.raise_pc]
    split
    · omega
    · exact hadd _ (by simp)
  | ret hpos => exact (hst (s.sp.val - 1) (by omega) (by omega)).trans (by decide)
  | call nnn | jp nnn => 
    rw [State.jump_pc, toNat_zextAddr]
    omega
  | jpV0 nnn =>
    rw [State.jump_pc, toNat_zextAddr_add_zextByte]
    omega
  | skip k c =>
    rw [State.skipIf_pc]
    split <;> exact hadd _ (by simp)
  | wait x k => exact hpc.le.trans (by decide)
  | _ => exact hadd 2#16 (by simp)

/-! ### The general registers (R10, R11) -/

theorem writesFlag_of_condition {c : Condition} (hf : i.writesFlag = true) (hc : i.condition = some c) :
    c = .memOutOfRange ∧ ∃ x y n, i = .drw x y n := by
  cases i with
  | drw x y n => exact ⟨(Option.some.inj hc).symm, x, y, n, rfl⟩
  | addReg | subReg | shrReg | subnReg | shlReg => cases hc
  | _ => cases hf

theorem not_writesFlag_of_skips (h : i.skips = true) : i.writesFlag = false := by
  cases i with
  | seImm | sneImm | seReg | sneReg | skp | sknp => rfl
  | _ => cases h

theorem ne_of_writesReg {x y : Reg} (hx : i.writesReg x = true) (hy : i.writesReg y = false) : y ≠ x := by
  rintro rfl
  rw [hx] at hy
  cases hy

/-- A register that is not named keeps its value, but `VF` under an instruction that writes a flag. -/
theorem Effect.getV_of_not_writesReg (h : Effect s i t) {x : Reg} (hx : i.writesReg x = false)
    (hf : x ≠ regF ∨ i.writesFlag = false) : t.getV x = s.getV x := by
  cases h with
  | raise info hc => exact getV_raise ..
  | draw a b n rows =>
    have hne : x ≠ regF := hf.resolve_right (by simp [Instr.writesFlag])
    rw [getV_draw, if_neg hne]
  | result k r b hy => rw [getV_result, if_neg (ne_of_writesReg hy hx)]; rfl
  | resultFlag b f hy hw =>
    have hne : x ≠ regF := hf.resolve_right (by simp [hw])
    rw [getV_resultFlag, if_neg hne, if_neg (ne_of_writesReg hy hx)]
  | loadRegs y hlen =>
    have hlt : ¬ x.toNat ≤ y.toNat := by simpa [Instr.writesReg] using hx
    rw [getV_setRegBlock, dif_neg (by omega)]
  | _ => rfl

theorem Effect.flag (h : Effect s i t) (hf : i.writesFlag = true) : (t.getV regF).toNat ≤ 1 ∨
    ∃ x y n info, i = .drw x y n ∧ Reports s t .memOutOfRange info ∧ t.getV regF = s.getV regF := by
  have hbit : ∀ b, (flagByte b).toNat ≤ 1 := by decide
  cases h with
  | raise info hc =>
    obtain ⟨rfl, x, y, n, hi⟩ := writesFlag_of_condition hf hc
    exact .inr ⟨x, y, n, info, hi, reports_raise s _ info, getV_raise ..⟩
  | draw x y n rows =>
    rw [getV_draw, if_pos rfl]
    exact .inl (hbit _)
  | resultFlag b f =>
    rw [getV_resultFlag, if_pos rfl]
    exact .inl (hbit f)
  | result k r b _ hn | index a hn => rw [hn] at hf; cases hf
  | skip k c hs => rw [not_writesFlag_of_skips hs] at hf; cases hf
  | _ => cases hf

/-! ### The obligations about every instruction -/

/-- Settles O50: the shapes move `PC` by `advance` or `skipIf`, but for the transfers and the wait. -/
theorem defaultAdvanceIsTwo : Obligations.DefaultAdvanceIsTwo := fun _ _ _ h => by
  have he := effect_of_exec h
  refine ⟨he.pc_of_not_movesPc, he.pc_of_skips, ?_⟩
  rintro x rfl
  exact he.pc_of_waitKey

/-- Settles O49: a shape writes the registers that its instruction names, and the flag last; only a draw can be rejected instead. -/
theorem registerWritesAreNamed : Obligations.RegisterWritesAreNamed := fun _ _ _ h =>
  have he := effect_of_exec h
  ⟨fun _ => he.getV_of_not_writesReg, he.flag⟩

/-! ### A step is halted, finds no word, or has the effect of the instruction at `PC` (R64, R176) -/

/-- The next states that a step can answer. -/
inductive StepEffect (s : State) : State → Prop
  | halted (h : s.halted = true) : StepEffect s s.clearReport
  | noFetch (hh : s.halted = false) (h : s.fetch = none) : StepEffect s (s.clearReport.raise .fetchOutOfRange s.pc.toNat)
  | runs {op : Opcode} {t : State} (hh : s.halted = false) (h : s.fetch = some op) (he : Effect s.clearReport (decode op) t) : StepEffect s t

theorem exists_stepEffect (s : State) : ∃ t, step s = .next t ∧ StepEffect s t := by
  rcases step_cases s with ⟨hh, hs⟩ | ⟨hh, hf, hs⟩ | ⟨op, hh, hf, hs⟩
  · exact ⟨_, hs, .halted hh⟩
  · exact ⟨_, hs, .noFetch hh hf⟩
  · obtain ⟨t, ht, he⟩ := exec_effect (decode op) s.clearReport
    exact ⟨t, hs.trans ht, .runs hh hf he⟩

theorem stepEffect_of_step (h : step s = .next t) : StepEffect s t := by
  obtain ⟨u, hu, he⟩ := exists_stepEffect s
  obtain rfl : u = t := Host.Outcome.next.inj (hu.symm.trans h)
  exact he

/-- Settles O43: each case of a step answers a next state. -/
theorem everyStepAnswersNext : Obligations.EveryStepAnswersNext := fun s =>
  have ⟨t, ht, _⟩ := exists_stepEffect s
  ⟨t, ht⟩

/-! ### The conditions of a step (R20, R170) -/

/-- A step raises nothing, or exactly one condition, on a core that was not halted. -/
theorem StepEffect.status (h : StepEffect s t) :
    (t.halted = s.halted ∧ t.err = s.err ∧ t.report = none) ∨
    (s.halted = false ∧ ∃ c info, t = s.clearReport.raise c info) := by
  cases h with
  | halted hh => exact .inl ⟨rfl, rfl, rfl⟩
  | noFetch hh hf => exact .inr ⟨hh, _, _, rfl⟩
  | runs hh hf he =>
    rcases he.status with hk | ⟨c, info, -, rfl⟩
    · exact .inl hk
    · exact .inr ⟨hh, c, info, rfl⟩

theorem fatal_iff (c : Condition) : c.fatal = true ↔ c.code = 3 ∨ c.code = 4 ∨ c.code = 5 := by
  cases c <;> decide

/-- Settles O44: the report of a step is that of the one `raise` it makes, or none. -/
theorem reportAgreesWithStatus : Obligations.ReportAgreesWithStatus := fun s t h => by
  rcases (stepEffect_of_step h).status with ⟨hh, he, hr⟩ | ⟨hh, c, info, rfl⟩
  · rw [hr]
    exact ⟨hh, he⟩
  · rw [State.raise_report]
    refine ⟨hh, reports_raise s.clearReport c info, ?_⟩
    rw [State.raise_halted, State.clearReport_halted, hh, Bool.false_or]
    exact fatal_iff c

/-! ### What a step leaves alone -/

/-- What a block write changes lies in the block, and the block in memory. -/
theorem mem_block_of_ne {m m' : List Host.Cell} {a b : Nat} {bs : List Byte} (h : Memory.writeBlock m a bs = some m')
    (hne : Memory.byteAt m' b ≠ Memory.byteAt m b) : b < 4096 ∧ a ≤ b ∧ b < a + bs.length := by
  rw [byteAt_writeBlock h] at hne
  have hb : a ≤ b ∧ b - a < bs.length := by
    by_contra hc
    exact hne (dif_neg hc)
  have hfits : ¬ (bs ≠ [] ∧ 4096 < a + bs.length) := fun hc => by rw [writeBlock_eq_none.2 hc] at h; cases h
  have hbs : bs ≠ [] := by rintro rfl; simp at hb
  have : ¬ 4096 < a + bs.length := fun hc => hfits ⟨hbs, hc⟩
  omega

theorem StepEffect.mem_of_ne (h : StepEffect s t) {a : Nat} (hne : Memory.byteAt t.mem a ≠ Memory.byteAt s.mem a) :
    s.halted = false ∧ a < 4096 ∧ ∃ op x, s.fetch = some op ∧
      ((decode op = .bcd x ∧ s.i.toNat ≤ a ∧ a ≤ s.i.toNat + 2) ∨
       (decode op = .storeRegs x ∧ s.i.toNat ≤ a ∧ a ≤ s.i.toNat + x.toNat)) := by
  cases h with
  | halted hh => exact absurd rfl hne
  | noFetch hh hf => exact absurd (by rw [State.raise_mem, State.clearReport_mem]) hne
  | @runs op _ hh hf he =>
    rcases he.mem with hm | ⟨bs, x, hm, hi⟩
    · exact absurd (by rw [hm, State.clearReport_mem]) hne
    · obtain ⟨ha, hlo, hhi⟩ := mem_block_of_ne hm hne
      simp only [State.clearReport_i] at hlo hhi
      refine ⟨hh, ha, op, x, hf, ?_⟩
      rcases hi with ⟨hd, hlen⟩ | ⟨hd, hlen⟩
      · exact .inl ⟨hd, hlo, by omega⟩
      · exact .inr ⟨hd, hlo, by omega⟩

/-- Settles O46: of the shapes only the two stores write memory, and each its own block. -/
theorem onlyStoresWriteMemory : Obligations.OnlyStoresWriteMemory := fun _ _ _ h hne => (stepEffect_of_step h).mem_of_ne hne

/-- Settles O47: of the shapes only the cleared and the drawn screen differ, and both set `DIRTY`. -/
theorem onlyClearAndDrawWriteScreen : Obligations.OnlyClearAndDrawWriteScreen := fun s t h => by
  cases stepEffect_of_step h with
  | halted hh => exact ⟨.inl ⟨fun _ _ => rfl, rfl⟩, id⟩
  | noFetch hh hf => exact ⟨.inl (keepsScreen_of_eq rfl rfl), id⟩
  | runs hh hf he =>
    rcases he.screen with ⟨hfb, hd⟩ | ⟨hd, hi⟩
    · exact ⟨.inl (keepsScreen_of_eq hfb hd), fun hs => hd.trans hs⟩
    · exact ⟨.inr ⟨_, hh, hf, hi⟩, fun _ => hd⟩

/-- Settles O48: of the shapes only `setDt` and `setSt` write a timer. -/
theorem stepsDoNotCountTimersDown : Obligations.StepsDoNotCountTimersDown := fun s t h => by
  cases stepEffect_of_step h with
  | halted hh => exact ⟨.inl rfl, .inl rfl⟩
  | noFetch hh hf => exact ⟨.inl rfl, .inl rfl⟩
  | @runs op _ hh hf he =>
    refine ⟨he.dt.imp_right ?_, he.st.imp_right ?_⟩
    · rintro ⟨x, hi, hx⟩
      exact ⟨op, x, hf, hi, hx⟩
    · rintro ⟨x, hi, hx⟩
      exact ⟨op, x, hf, hi, hx⟩

/-! ### Halted cores and sticky status (R19, R20, R178) -/

theorem clearReport_clearReport (s : State) : s.clearReport.clearReport = s.clearReport := rfl

theorem fireAll_step (ts : List Transition) (h : step s = .next t) : fireAll .loaded (.step :: ts) s = fireAll .loaded ts t := by
  simp only [fireAll, Phase.after, fire, h]

/-- Settles O42, by induction on the number of steps. -/
theorem haltedStepsChangeNothing : Obligations.HaltedStepsChangeNothing := fun s n hh => by
  show _ = Host.Outcome.next s.clearReport
  induction n generalizing s with
  | zero => exact fireAll_step [] (step_of_halted s hh)
  | succ n ih => rw [List.replicate_succ, fireAll_step _ (step_of_halted s hh), ih s.clearReport hh, clearReport_clearReport]

theorem load_eq_next {bytes : List Byte} (h : s.load bytes = .next t) :
    ∃ m, Memory.writeBlock s.mem 0x200 bytes = some m ∧ t = { s with mem := m } := by
  rcases load_cases s bytes with ⟨m, hm, hl⟩ | ⟨-, hl⟩
  · exact ⟨m, hm, Host.Outcome.next.inj (h.symm.trans hl)⟩
  · rw [hl] at h
    cases h

/-- A step clears no bit of `ERR`, and does not start a halted core again. -/
theorem StepEffect.sticky (h : StepEffect s t) :
    (s.halted = true → t.halted = true) ∧ ∀ k : Nat, s.err.getLsbD k = true → t.err.getLsbD k = true := by
  rcases h.status with ⟨hh, he, -⟩ | ⟨hh, c, info, rfl⟩
  · rw [hh, he]
    exact ⟨id, fun _ => id⟩
  · refine ⟨fun hs => absurd (hh.symm.trans hs) Bool.false_ne_true, fun k hk => ?_⟩
    rw [(reports_raise s.clearReport c info).2, State.clearReport_err, hk, Bool.true_or]

/-- Settles O45: a step only adds to the status, and no other transition but `reset` writes it. -/
theorem statusIsSticky : Obligations.StatusIsSticky := fun tr s t hr h => by
  cases tr with
  | reset => exact absurd rfl hr
  | load bytes =>
    obtain ⟨m, -, rfl⟩ := load_eq_next h
    exact ⟨id, fun _ => id⟩
  | step => exact (stepEffect_of_step h).sticky
  | tick | present =>
    cases h
    exact ⟨id, fun _ => id⟩

/-! ### The invariant (R13, R19, R20) -/

/-- The bits of `ERR` that a condition adds, and `HALTED`, keep the second clause of the invariant. -/
theorem halted_iff_raise (c : Condition) (info : Nat)
    (h : s.halted = true ↔ s.err.getLsbD 2 = true ∨ s.err.getLsbD 3 = true ∨ s.err.getLsbD 4 = true) :
    (s.raise c info).halted = true ↔ (s.raise c info).err.getLsbD 2 = true ∨ (s.raise c info).err.getLsbD 3 = true ∨
      (s.raise c info).err.getLsbD 4 = true := by
  rw [State.raise_halted, Bool.or_eq_true, h, fatal_iff]
  simp only [(reports_raise s c info).2, Bool.or_eq_true, decide_eq_true_eq, eq_comm (b := c.code), Nat.reduceAdd]
  tauto

theorem StepEffect.halted_iff (h : StepEffect s t)
    (hi : s.halted = true ↔ s.err.getLsbD 2 = true ∨ s.err.getLsbD 3 = true ∨ s.err.getLsbD 4 = true) :
    t.halted = true ↔ t.err.getLsbD 2 = true ∨ t.err.getLsbD 3 = true ∨ t.err.getLsbD 4 = true := by
  rcases h.status with ⟨hh, he, -⟩ | ⟨-, c, info, rfl⟩
  · rw [hh, he]
    exact hi
  · exact halted_iff_raise c info hi

/-- A step keeps the invariant: each clause by what the shapes do to that part of the state. -/
theorem StepEffect.inv (h : StepEffect s t) (hs : s.Inv) : t.Inv := by
  obtain ⟨hwf, hiff, hpc, hst⟩ := hs
  have hhalted := h.halted_iff hiff
  cases h with
  | halted hh => exact ⟨hwf, hhalted, hpc, hst⟩
  | noFetch hh hf => exact ⟨hwf, hhalted, hpc, hst⟩
  | runs hh hf he =>
    have hlt : s.pc.toNat < 4095 := fetch_eq_some s hf
    refine ⟨?_, hhalted, he.pc_le hlt hst, fun k hk hu => ?_⟩
    · rcases he.mem with hm | ⟨bs, x, hm, -⟩
      · rw [hm]
        exact hwf
      · exact wf_writeBlock hwf hm
    · rcases he.stack k hk hu with ⟨hu', hk'⟩ | hk'
      · rw [hk']
        exact hst k hk hu'
      · rw [hk', State.clearReport_pc, BitVec.toNat_add]
        simp
        omega

/-- Settles O53: at reset memory lists nothing, `ERR` is clear, and no entry is in use. -/
theorem invariantHoldsAtReset : Obligations.InvariantHoldsAtReset := ⟨rfl, by decide, by decide, fun _ _ h => absurd h (Nat.not_lt_zero _)⟩

theorem construct_inv (s : State) : s.construct.Inv := invariantHoldsAtReset

theorem load_inv {bytes : List Byte} (hs : s.Inv) (h : s.load bytes = .next t) : t.Inv := by
  obtain ⟨m, hm, rfl⟩ := load_eq_next h
  obtain ⟨hwf, hrest⟩ := hs
  exact ⟨wf_writeBlock hwf hm, hrest⟩

/-- Settles O54, transition by transition: a reset meets the invariant, a `load` and a step keep it, and a tick and a present touch no part
of it. -/
theorem everyTransitionKeepsInvariant : Obligations.EveryTransitionKeepsInvariant := fun tr s t hs h => by
  cases tr with
  | reset =>
    cases h
    exact construct_inv s
  | load bytes => exact load_inv hs h
  | step => exact (stepEffect_of_step h).inv hs
  | tick | present =>
    cases h
    exact hs

end Sys2Proof.Machine
end

section
/-! PROOFS. Control transfer: the skips, `JP V0`, `CALL` and `RET` (40_control_flow.md R80 to R88, 44_keys_timers_random.md R150, R151). -/

namespace Sys2Proof.Machine

variable {s : State} {i : Instr} {c : Bool} {P : Prop} [Decidable P]

/-! ### Skips -/

/-- A skip writes `PC` alone. -/
theorem skipIf_keeps (s : State) (c : Bool) : KeepsRegs s (s.skipIf c) ∧ (s.skipIf c).i = s.i ∧ KeepsRest s (s.skipIf c) :=
  ⟨keepsRegs_of_eq rfl, rfl, keepsRest_of_eq rfl rfl rfl rfl rfl rfl rfl rfl rfl rfl rfl rfl⟩

theorem pcAdvances_skipIf_of_iff (h : c = true ↔ P) : PcAdvances s (s.skipIf c) (if P then 4 else 2) := by
  simpa only [h] using pcAdvances_skipIf s c

theorem pcAdvances_skipIf_of_iff_not (h : c = true ↔ ¬ P) : PcAdvances s (s.skipIf c) (if P then 2 else 4) := by
  simpa only [h, ite_not] using pcAdvances_skipIf s c

/-- An instruction that is a skip on `P`. -/
theorem skip_spec (he : exec i s = .next (s.skipIf c)) (h : c = true ↔ P) : ∃ t, exec i s = .next t ∧
    PcAdvances s t (if P then 4 else 2) ∧ KeepsRegs s t ∧ t.i = s.i ∧ KeepsRest s t :=
  ⟨_, he, pcAdvances_skipIf_of_iff h, skipIf_keeps s c⟩

/-- Settles O2: the byte comparison is that of the numbers, and a skip writes `PC` alone. -/
theorem skipIfEqualImmediate : Obligations.SkipIfEqualImmediate := fun x nn =>
  ⟨decode_seImm x nn, fun _ => skip_spec rfl (by rw [beq_iff_eq, BitVec.toNat_inj])⟩

/-- Settles O3: the skip is on the comparison the other way round. -/
theorem skipIfNotEqualImmediate : Obligations.SkipIfNotEqualImmediate := fun x nn =>
  ⟨decode_sneImm x nn, fun _ => skip_spec rfl (by rw [bne_iff_ne, ne_eq, ne_eq, BitVec.toNat_inj])⟩

/-- Settles O4: the two skips compare the registers, and the decoder does not look at `N`. -/
theorem skipOnTwoRegisters : Obligations.SkipOnTwoRegisters := fun x y n =>
  ⟨decode_seReg x y n, decode_sneReg x y n, fun s =>
    ⟨skip_spec rfl beq_iff_eq, _, rfl, pcAdvances_skipIf_of_iff_not bne_iff_ne, skipIf_keeps s _⟩⟩

/-! ### Skips on a key (R150, R151) -/

theorem keyDown_iff (keys : Keys) (k : Byte) : keyDown keys k = true ↔ k.toNat ≤ 15 ∧ keys.getLsbD k.toNat = true := by
  rw [keyDown, Bool.and_eq_true, decide_eq_true_eq]

/-- A skip after a key snapshot has been read writes `PC` and the place in the input. -/
theorem keysRead_skipIf_keeps (s : State) (c : Bool) :
    let t := s.keysRead.skipIf c
    t.keyIndex = s.keyIndex + 1 ∧ t.randIndex = s.randIndex ∧ KeepsRegs s t ∧ t.i = s.i ∧
      KeepsMemory s t ∧ KeepsScreen s t ∧ KeepsStack s t ∧ KeepsTimers s t ∧ KeepsStatus s t :=
  ⟨rfl, rfl, keepsRegs_of_eq rfl, rfl, keepsMemory_of_eq rfl, keepsScreen_of_eq rfl rfl, keepsStack_of_eq rfl rfl,
    ⟨rfl, rfl⟩, ⟨rfl, rfl, rfl⟩⟩

/-- Settles O27: the skip is on the key whose number is the whole byte, under the snapshot that is used up. -/
theorem skipOnKeyState : Obligations.SkipOnKeyState := fun x =>
  ⟨decode_skp x, decode_sknp x, fun s => by
    have hdown := keyDown_iff s.keys (s.getV x)
    have hup : (!keyDown s.keys (s.getV x)) = true ↔ ¬ ((s.getV x).toNat ≤ 15 ∧ s.keys.getLsbD (s.getV x).toNat = true) := by
      rw [← hdown, Bool.not_eq_true', Bool.not_eq_true]
    exact ⟨⟨_, rfl, pcAdvances_skipIf_of_iff (s := s.keysRead) hdown, keysRead_skipIf_keeps s _⟩,
      ⟨_, rfl, pcAdvances_skipIf_of_iff_not (s := s.keysRead) hup, keysRead_skipIf_keeps s _⟩⟩⟩

/-! ### Jumps -/

/-- Settles O5: sixteen bits hold the sum, so nothing of it is lost. -/
theorem indexedJumpAddsV0 : Obligations.IndexedJumpAddsV0 := fun nnn =>
  ⟨decode_jpV0 nnn, fun s => ⟨_, rfl, toNat_zextAddr_add_zextByte nnn _, jump_keeps s _⟩⟩

theorem zextAddr_eq_of_toNat_eq {a : Addr} {nnn : Addr12} (h : a.toNat = nnn.toNat) : zextAddr nnn = a :=
  BitVec.eq_of_toNat_eq ((toNat_zextAddr nnn).trans h.symm)

/-- Settles O51: the jump writes the `PC` that is there, and no report stands to be cleared. -/
theorem selfJumpIsFixedPoint : Obligations.SelfJumpIsFixedPoint := fun s nnn hh hr hpc hf => by
  have hclear : s.clearReport = s := by rw [State.clearReport, ← hr]
  have hjump : s.jump (zextAddr nnn) = s := by rw [zextAddr_eq_of_toNat_eq hpc, State.jump]
  have hd : decode (0x1#4 ++ nnn) = .jp nnn := decode_wordNNN_jp nnn
  rw [step_of_fetch s hh hf, hd, hclear, exec_jp, hjump]

/-! ### The call stack (R14, R81, R83) -/

/-- Settles O6: below sixteen entries the push writes entry `SP` and no other. -/
theorem callPushesReturnAddress : Obligations.CallPushesReturnAddress := fun nnn =>
  ⟨decode_call nnn, fun s h => by
    refine ⟨_, exec_call_of_lt s nnn h, toNat_zextAddr nnn, rfl, fun k hk => ?_, keepsRegs_of_eq rfl, rfl, keepsMemory_of_eq rfl,
      keepsScreen_of_eq rfl rfl, ⟨rfl, rfl⟩, ⟨rfl, rfl, rfl⟩, ⟨rfl, rfl⟩⟩
    rw [State.jump_stack]
    split
    · subst k
      rw [Vector.getElem_set_self, BitVec.toNat_add]
      rfl
    · next hne => exact Vector.getElem_set_ne h hk (Ne.symm hne)⟩

/-- What a fatal condition leaves: its report, a halted core, `PC` at the instruction, and everything else as it was (R177). -/
theorem fatal_spec {c : Condition} {info : Nat} (hc : c.fatal = true) (he : exec i s = .next (s.raise c info)) :
    ∃ t, exec i s = .next t ∧ Reports s t c info ∧ t.halted = true ∧ t.pc = s.pc ∧ KeepsStack s t ∧
      KeepsRegs s t ∧ t.i = s.i ∧ KeepsMemory s t ∧ KeepsScreen s t ∧ KeepsTimers s t ∧ KeepsInputs s t := by
  obtain ⟨hh, hpc⟩ := raise_fatal s info hc
  obtain ⟨hregs, hi, hmem, hscreen, hstack, htimers, hinputs⟩ := raise_keeps s c info
  exact ⟨_, he, reports_raise s c info, hh, hpc, hstack, hregs, hi, hmem, hscreen, htimers, hinputs⟩

/-- Settles O7: with no room the push answers nothing, and the meaning is one fatal `raise`. -/
theorem callOnFullStackHalts : Obligations.CallOnFullStackHalts := fun nnn s h => fatal_spec rfl (exec_call_of_full s nnn h)

/-- Settles O8: the pop lowers `SP`, and the entry it leaves goes to `PC`. -/
theorem returnPopsIntoPc : Obligations.ReturnPopsIntoPc :=
  ⟨decode_ret, fun s h =>
    ⟨_, exec_ret_of_pos s h, Nat.sub_add_cancel h, rfl, fun _ _ => rfl, keepsRegs_of_eq rfl, rfl, keepsMemory_of_eq rfl,
      keepsScreen_of_eq rfl rfl, ⟨rfl, rfl⟩, ⟨rfl, rfl, rfl⟩, ⟨rfl, rfl⟩⟩⟩

/-- Settles O9: with no entry in use the pop answers nothing, and the meaning is one fatal `raise`. -/
theorem returnOnEmptyStackHalts : Obligations.ReturnOnEmptyStackHalts := fun s h => fatal_spec rfl (exec_ret_of_empty s h)

/-- Settles O10: the `RET` pops the entry that the `CALL` pushed, which is in use and so as it was. -/
theorem returnResumesAfterCall : Obligations.ReturnResumesAfterCall := fun nnn s h => by
  refine ⟨_, exec_call_of_lt s nnn h, fun u hsp hentries => ?_⟩
  have hsp' : u.sp.val = s.sp.val + 1 := congrArg Fin.val hsp
  have htop : u.stack[s.sp.val] = s.pc + 2#16 := by
    rw [hentries s.sp.val h (Nat.lt_succ_self _), State.jump_stack, Vector.getElem_set_self]
  refine ⟨_, exec_ret_of_pos u (by omega), ?_, Fin.ext ?_, fun k hk hlt => ?_⟩
  · apply pcAdvances_two
    simp only [State.jump_pc, hsp', Nat.add_sub_cancel, htop]
  · simp only [State.jump_sp, hsp', Nat.add_sub_cancel]
  · rw [State.jump_stack, hentries k hk (Nat.lt_succ_of_lt hlt), State.jump_stack]
    exact Vector.getElem_set_ne h hk (Nat.ne_of_gt hlt)

end Sys2Proof.Machine
end

section
/-! PROOFS. The instructions whose result goes to a register (41_immediate_and_alu.md, 44_keys_timers_random.md R153, R156). -/

namespace Sys2Proof.Machine

variable {s : State} {i : Instr} {x : Reg} {b flag : Byte}

/-! ### A result without a flag -/

/-- A result writes its register and `PC`. -/
theorem result_keeps (s : State) (x : Reg) (b : Byte) :
    PcAdvances s (s.result x b) 2 ∧ (s.result x b).i = s.i ∧ KeepsRest s (s.result x b) :=
  ⟨pcAdvances_two rfl, rfl, keepsRest_of_eq rfl rfl rfl rfl rfl rfl rfl rfl rfl rfl rfl rfl⟩

theorem getV_result_self (s : State) (x : Reg) (b : Byte) : (s.result x b).getV x = b := by rw [getV_result, if_pos rfl]

theorem getV_result_ne (s : State) (x : Reg) (b : Byte) : ∀ k : Reg, k ≠ x → (s.result x b).getV k = s.getV k :=
  fun k hk => by rw [getV_result, if_neg hk]

/-- Settles O11: the result is the immediate, also in `VF`. -/
theorem loadImmediateSetsRegister : Obligations.LoadImmediateSetsRegister := fun x nn =>
  ⟨decode_ldImm x nn, fun s => ⟨_, rfl, fun k => getV_result s x k nn, result_keeps s x nn⟩⟩

/-- Settles O29: the result is `DT`, which `State.result` does not write. -/
theorem delayTimerRead : Obligations.DelayTimerRead := fun x =>
  ⟨decode_getDt x, fun s => ⟨_, rfl, fun k => getV_result s x k s.dt, result_keeps s x s.dt⟩⟩

/-- Settles O12: the sum of bytes is the sum mod 256, and only its register is written. -/
theorem addImmediateWrapsWithoutFlag : Obligations.AddImmediateWrapsWithoutFlag := fun x nn =>
  ⟨decode_addImm x nn, fun s =>
    ⟨_, rfl, by rw [getV_result_self, BitVec.toNat_add], getV_result_ne s x _, result_keeps s x _⟩⟩

/-- An instruction whose result is given bit by bit. -/
theorem bitwise_spec {f : Nat → Bool} (he : exec i s = .next (s.result x b)) (hb : ∀ j < 8, b.getLsbD j = f j) :
    ∃ t, exec i s = .next t ∧ (∀ j < 8, (t.getV x).getLsbD j = f j) ∧ (∀ k : Reg, k ≠ x → t.getV k = s.getV k) ∧
      PcAdvances s t 2 ∧ t.i = s.i ∧ KeepsRest s t :=
  ⟨_, he, by rwa [getV_result_self], getV_result_ne s x b, result_keeps s x b⟩

/-- Settles O13: the four results are bitwise, and none writes a flag. -/
theorem copyAndLogicWithoutFlag : Obligations.CopyAndLogicWithoutFlag := fun x y => by
  refine ⟨decode_ldReg x y, decode_orReg x y, decode_andReg x y, decode_xorReg x y, fun s => ?_⟩
  simp only [List.forall_mem_cons]
  exact ⟨bitwise_spec rfl fun _ _ => rfl, bitwise_spec rfl fun _ _ => BitVec.getLsbD_or, bitwise_spec rfl fun _ _ => BitVec.getLsbD_and,
    bitwise_spec rfl fun _ _ => BitVec.getLsbD_xor, by simp⟩

/-- Settles O32: the result is the drawn byte under the mask, on a state that has drawn it. -/
theorem randomByteUnderMask : Obligations.RandomByteUnderMask := fun x nn =>
  ⟨decode_rnd x nn, fun s => by
    obtain ⟨hpc, hi, hmem, hscreen, hstack, htimers, hstatus, hkeys, hrand⟩ := result_keeps s.randDrawn x (s.rand &&& nn)
    refine ⟨s.randDrawn.result x (s.rand &&& nn), rfl, fun j _ => ?_, getV_result_ne s.randDrawn x _, hrand, hkeys, hpc, hi, hmem,
      hscreen, hstack, htimers, hstatus⟩
    rw [getV_result_self, BitVec.getLsbD_and]
    rfl⟩

/-! ### A result with a flag (R100) -/

theorem resultFlag_keeps (s : State) (x : Reg) (b flag : Byte) :
    PcAdvances s (s.resultFlag x b flag) 2 ∧ (s.resultFlag x b flag).i = s.i ∧ KeepsRest s (s.resultFlag x b flag) :=
  ⟨pcAdvances_two rfl, rfl, keepsRest_of_eq rfl rfl rfl rfl rfl rfl rfl rfl rfl rfl rfl rfl⟩

/-- An instruction whose result and flag are given as numbers: the flag is what remains in `VF`. -/
theorem flag_spec {n m : Nat} (he : exec i s = .next (s.resultFlag x b flag)) (hb : b.toNat = n) (hf : flag.toNat = m) :
    ∃ t, exec i s = .next t ∧ (x ≠ regF → (t.getV x).toNat = n) ∧ (t.getV regF).toNat = m ∧
      (∀ k : Reg, k ≠ x → k ≠ regF → t.getV k = s.getV k) ∧ PcAdvances s t 2 ∧ t.i = s.i ∧ KeepsRest s t := by
  refine ⟨_, he, fun hx => ?_, ?_, fun k hk hkF => ?_, resultFlag_keeps s x b flag⟩
  · rw [getV_resultFlag, if_neg hx, if_pos rfl, hb]
  · rw [getV_resultFlag, if_pos rfl, hf]
  · rw [getV_resultFlag, if_neg hkF, if_neg hk]

/-! ### The flags as numbers (R107 to R111) -/

theorem toNat_carryFlag (a b : Byte) : (carryFlag a b).toNat = if a.toNat + b.toNat > 255 then 1 else 0 := by
  simp only [carryFlag, toNat_flagByte, decide_eq_true_eq]

theorem toNat_notBorrowFlag (a b : Byte) : (notBorrowFlag a b).toNat = if a.toNat < b.toNat then 0 else 1 := by
  simp only [notBorrowFlag, toNat_flagByte, decide_eq_true_eq, ite_not]

theorem toNat_sub_byte (a b : Byte) : (a - b).toNat = (a.toNat + 256 - b.toNat) % 256 := by
  have hb := b.isLt
  rw [BitVec.toNat_sub]
  omega

theorem toNat_shiftRightFlag (b : Byte) : (shiftRightFlag b).toNat = b.toNat % 2 := by
  simp only [shiftRightFlag, toNat_flagByte, BitVec.getLsbD, Nat.testBit_eq_decide_div_mod_eq, decide_eq_true_eq]
  split <;> omega

theorem toNat_shiftLeftFlag (b : Byte) : (shiftLeftFlag b).toNat = b.toNat / 128 := by
  have hb := b.isLt
  simp only [shiftLeftFlag, toNat_flagByte, BitVec.getLsbD, Nat.testBit_eq_decide_div_mod_eq, decide_eq_true_eq]
  split <;> omega

theorem toNat_shiftRight_one (b : Byte) : (b >>> 1).toNat = b.toNat / 2 := by
  rw [BitVec.toNat_ushiftRight, Nat.shiftRight_one]

theorem toNat_shiftLeft_one (b : Byte) : (b <<< 1).toNat = b.toNat * 2 % 256 := by
  rw [BitVec.toNat_shiftLeft, Nat.shiftLeft_eq, Nat.pow_one]

/-- Settles O14: the flag is computed from the sum as a number, before the register is written. -/
theorem addSetsCarryFlag : Obligations.AddSetsCarryFlag := fun x y =>
  ⟨decode_addReg x y, fun _ => flag_spec rfl (BitVec.toNat_add ..) (toNat_carryFlag ..)⟩

/-- Settles O15: `SUBN` is `SUB` with the operands the other way round. -/
theorem subtractSetsNotBorrowFlag : Obligations.SubtractSetsNotBorrowFlag := fun x y => by
  refine ⟨decode_subReg x y, decode_subnReg x y, fun s => ?_⟩
  simp only [List.forall_mem_cons]
  exact ⟨flag_spec rfl (toNat_sub_byte ..) (toNat_notBorrowFlag ..), flag_spec rfl (toNat_sub_byte ..) (toNat_notBorrowFlag ..), by simp⟩

/-- Settles O16: both shifts read `V[Y]`, and the flag is its bit that goes. -/
theorem shiftsMoveVyIntoVx : Obligations.ShiftsMoveVyIntoVx := fun x y => by
  refine ⟨decode_shrReg x y, decode_shlReg x y, fun s => ?_⟩
  simp only [List.forall_mem_cons]
  exact ⟨flag_spec rfl (toNat_shiftRight_one _) (toNat_shiftRightFlag _), flag_spec rfl (toNat_shiftLeft_one _) (toNat_shiftLeftFlag _), by simp⟩

end Sys2Proof.Machine
end

section
/-! PROOFS. The index register, memory and fetch (42_index_and_memory.md R120 to R125, 20_memory.md R43, R50, R53). -/

namespace Sys2Proof.Machine

variable {s : State} {i : Instr}

/-! ### The index register -/

/-- A write to `I` leaves everything else but `PC` as it was. -/
theorem setIndex_keeps (s : State) (a : Addr) :
    PcAdvances s (s.setIndex a) 2 ∧ KeepsRegs s (s.setIndex a) ∧ KeepsRest s (s.setIndex a) :=
  ⟨pcAdvances_two rfl, keepsRegs_of_eq rfl, keepsRest_of_eq rfl rfl rfl rfl rfl rfl rfl rfl rfl rfl rfl rfl⟩

@[simp] theorem toNat_zextByte (b : Byte) : (zextByte b).toNat = b.toNat := BitVec.toNat_setWidth_of_le (by decide)

theorem toNat_glyphAddress (d : Nibble) : (glyphAddress d).toNat = 0x050 + 5 * d.toNat := by
  have hd := d.isLt
  simp only [glyphAddress, BitVec.toNat_add, BitVec.toNat_mul, BitVec.toNat_setWidth, BitVec.toNat_ofNat]
  omega

theorem toNat_lowNibble (b : Byte) : (b.extractLsb' 0 4).toNat = b.toNat % 16 := by simp

/-- Settles O17: `I` is the zero-extended address. -/
theorem loadIndexSetsI : Obligations.LoadIndexSetsI := fun nnn =>
  ⟨decode_ldI nnn, fun s => ⟨_, rfl, toNat_zextAddr nnn, setIndex_keeps s _⟩⟩

/-- Settles O18: the 16-bit sum of `I` and the zero-extended byte. -/
theorem addToIndexWraps : Obligations.AddToIndexWraps := fun x =>
  ⟨decode_addI x, fun s => ⟨_, rfl, by rw [State.setIndex_i, BitVec.toNat_add, toNat_zextByte], setIndex_keeps s _⟩⟩

/-- Settles O19: the address is that of the digit, and the digit the low nibble. -/
theorem glyphAddressOfLowNibble : Obligations.GlyphAddressOfLowNibble := fun x =>
  ⟨decode_glyph x, fun s => ⟨_, rfl, by rw [State.setIndex_i, toNat_glyphAddress, toNat_lowNibble], setIndex_keeps s _⟩⟩

/-! ### Stores that fit (R123, R124) -/

/-- What reads after a block write of the bytes `f 0`, `f 1`, ... -/
theorem byteAt_writeBlock_fn {m m' : List Host.Cell} {a : Nat} {bs : List Byte} {f : Nat → Byte} (h : Memory.writeBlock m a bs = some m')
    (hf : ∀ k (hk : k < bs.length), bs[k] = f k) (b : Nat) :
    Memory.byteAt m' b = if a ≤ b ∧ b < a + bs.length then f (b - a) else Memory.byteAt m b := by
  rw [byteAt_writeBlock h]
  by_cases hb : a ≤ b ∧ b - a < bs.length
  · rw [dif_pos hb, if_pos (by omega), hf]
  · rw [dif_neg hb, if_neg (by omega)]

/-- An instruction that stores the bytes `f 0` to `f (n - 1)` at `I`, all of them in memory. -/
theorem store_spec {bytes : List Byte} {n : Nat} {f : Nat → Byte} (he : exec i s = .next (s.storeAtIndex bytes)) (hn : bytes.length = n)
    (hf : ∀ k (hk : k < bytes.length), bytes[k] = f k) (hfits : s.i.toNat + n ≤ 4096) :
    ∃ t, exec i s = .next t ∧
      (∀ b, Memory.byteAt t.mem b = if s.i.toNat ≤ b ∧ b < s.i.toNat + n then f (b - s.i.toNat) else Memory.byteAt s.mem b) ∧
      t.pc = s.pc + 2#16 ∧ KeepsRegs s t ∧ t.i = s.i ∧
      KeepsScreen s t ∧ KeepsStack s t ∧ KeepsTimers s t ∧ KeepsStatus s t ∧ KeepsInputs s t := by
  subst hn
  obtain ⟨m, hm, hstore⟩ := storeAtIndex_of_fits s hfits
  rw [hstore] at he
  exact ⟨_, he, byteAt_writeBlock_fn hm hf, rfl, keepsRegs_of_eq rfl, rfl, keepsScreen_of_eq rfl rfl, keepsStack_of_eq rfl rfl,
    ⟨rfl, rfl⟩, ⟨rfl, rfl, rfl⟩, ⟨rfl, rfl⟩⟩

/-- Decimal digit `k` of a byte, the hundreds first (R123). -/
def digitAt (b : Byte) (k : Nat) : Byte := BitVec.ofNat 8 (b.toNat / 10 ^ (2 - k) % 10)

theorem toNat_digitAt (b : Byte) (k : Nat) : (digitAt b k).toNat = b.toNat / 10 ^ (2 - k) % 10 := by
  rw [digitAt, BitVec.toNat_ofNat]
  omega

theorem getElem_decimalDigits (b : Byte) (k : Nat) (hk : k < (decimalDigits b).length) : (decimalDigits b)[k] = digitAt b k := by
  have hb := b.isLt
  rw [length_decimalDigits] at hk
  have hhundreds : b.toNat / 100 = b.toNat / 100 % 10 := by omega
  interval_cases k
  · exact congrArg (BitVec.ofNat 8) hhundreds
  · rfl
  · simp [decimalDigits, digitAt]

/-- Settles O20: the block of `LD B` is the three digits. -/
theorem decimalDigitsStored : Obligations.DecimalDigitsStored := fun x =>
  ⟨decode_bcd x, fun s h => by
    have hb := (s.getV x).isLt
    obtain ⟨t, ht, hmem, hpc, hkeeps⟩ :=
      store_spec (exec_bcd x s) (length_decimalDigits _) (getElem_decimalDigits (s.getV x)) (by omega)
    refine ⟨t, ht, ?_, ?_, ?_, fun a ha => ?_, pcAdvances_two hpc, hkeeps⟩
    · rw [hmem, if_pos (by omega), toNat_digitAt, Nat.sub_self]
      omega
    · rw [hmem, if_pos (by omega), toNat_digitAt, Nat.add_sub_cancel_left]
      rfl
    · rw [hmem, if_pos (by omega), toNat_digitAt, Nat.add_sub_cancel_left]
      simp
    · rw [hmem, if_neg (by omega)]⟩

/-- Settles O21: the block of `LD [I], Vx` is the registers up to `X`. -/
theorem registersStoredAtI : Obligations.RegistersStoredAtI := fun x =>
  ⟨decode_storeRegs x, fun s h => by
    obtain ⟨t, ht, hmem, hpc, hkeeps⟩ :=
      store_spec (exec_storeRegs x s) (length_regBlock s x) (getElem_regBlock s x) (by omega)
    refine ⟨t, ht, fun k hk => ?_, fun a ha => ?_, pcAdvances_two hpc, hkeeps⟩
    · rw [hmem, if_pos (by omega), Nat.add_sub_cancel_left, BitVec.ofNat_toNat, BitVec.setWidth_eq]
    · rw [hmem, if_neg (by omega)]⟩

/-- Settles O22: the block that is read goes to the registers up to `X`. -/
theorem registersLoadedFromI : Obligations.RegistersLoadedFromI := fun x =>
  ⟨decode_loadRegs x, fun s h => by
    obtain ⟨bs, hlen, hbytes, he⟩ := exec_loadRegs_of_fits s x h
    refine ⟨_, he, fun k => ?_, pcAdvances_two rfl, rfl, keepsRest_of_eq rfl rfl rfl rfl rfl rfl rfl rfl rfl rfl rfl rfl⟩
    rw [getV_setRegBlock]
    by_cases hk : k.toNat < bs.length
    · rw [dif_pos hk, if_pos (by omega), hbytes]
    · rw [dif_neg hk, if_neg (by omega)]⟩

/-! ### Accesses that leave memory (R50, R172) -/

/-- What a rejected access leaves: its report, `PC` moved on, and everything else as it was. -/
theorem reject_spec (he : exec i s = .next s.rejectAccess) : ∃ t, exec i s = .next t ∧
    Reports s t .memOutOfRange (if 4096 ≤ s.i.toNat then s.i.toNat else 4096) ∧ t.halted = s.halted ∧ PcAdvances s t 2 ∧
    KeepsRegs s t ∧ t.i = s.i ∧ KeepsMemory s t ∧ KeepsScreen s t ∧ KeepsStack s t ∧ KeepsTimers s t ∧ KeepsInputs s t := by
  obtain ⟨hr, hh, hpc⟩ := rejectAccess_keeps s
  rw [Nat.max_comm, Nat.max_def] at hr
  exact ⟨_, he, hr, hh, hpc, raise_keeps s _ _⟩

/-- Settles O23: each of the four blocks has an address outside memory exactly if its last one is. -/
theorem accessOutOfRangeRejected : Obligations.AccessOutOfRangeRejected := fun x y n s => by
  simp only [List.forall_mem_cons]
  refine ⟨fun hn h => ?_, fun _ h => ?_, fun _ h => ?_, fun _ h => ?_, by simp⟩
  · exact reject_spec (exec_drw_of_exceeds s x y n (by omega) (by omega))
  · have hstore := storeAtIndex_of_exceeds s (bytes := decimalDigits (s.getV x)) (List.cons_ne_nil _ _) (by simp; omega)
    exact reject_spec ((exec_bcd x s).trans (congrArg _ hstore))
  · have hlen := length_regBlock s x
    have hstore := storeAtIndex_of_exceeds s (bytes := s.regBlock x) (List.ne_nil_of_length_pos (by omega)) (by omega)
    exact reject_spec ((exec_storeRegs x s).trans (congrArg _ hstore))
  · exact reject_spec (exec_loadRegs_of_exceeds s x (by omega))

/-! ### Fetch and the step cycle (R43, R51, R64) -/

/-- Settles O38: `assembleWord` puts the byte at `PC` above the one behind it. -/
theorem fetchIsBigEndian : Obligations.FetchIsBigEndian := fun s h => ⟨_, fetch_of_lt s h, toNat_assembleWord _ _⟩

/-- The word that the next fetch reads after an instruction that stores `f 0` to `f (n - 1)` at `I`. -/
theorem store_fetch {bytes : List Byte} {n : Nat} {f : Nat → Byte} (he : exec i s = .next (s.storeAtIndex bytes)) (hn : bytes.length = n)
    (hf : ∀ k (hk : k < bytes.length), bytes[k] = f k) (hfits : s.i.toNat + n ≤ 4096) (hpc : s.pc.toNat + 3 < 4096) :
    ∃ t, exec i s = .next t ∧ t.fetch = some (assembleWord
      (if s.i.toNat ≤ s.pc.toNat + 2 ∧ s.pc.toNat + 2 < s.i.toNat + n then f (s.pc.toNat + 2 - s.i.toNat)
        else Memory.byteAt s.mem (s.pc.toNat + 2))
      (if s.i.toNat ≤ s.pc.toNat + 3 ∧ s.pc.toNat + 3 < s.i.toNat + n then f (s.pc.toNat + 3 - s.i.toNat)
        else Memory.byteAt s.mem (s.pc.toNat + 3))) := by
  obtain ⟨t, ht, hmem, htpc, -⟩ := store_spec he hn hf hfits
  have hnat : t.pc.toNat = s.pc.toNat + 2 := by
    rw [htpc, BitVec.toNat_add, BitVec.toNat_ofNat]
    omega
  refine ⟨t, ht, ?_⟩
  rw [fetch_of_lt t (by omega), hnat, hmem, hmem]

/-- Settles O39: the two bytes at the next `PC` read after the store as `store_spec` says of every byte. -/
theorem storeSeenByNextFetch : Obligations.StoreSeenByNextFetch := fun x s => by
  simp only [List.forall_mem_cons]
  refine ⟨fun hi hpc => ?_, fun hi hpc => ?_, by simp⟩
  · exact store_fetch (f := fun k => BitVec.ofNat 8 ((s.getV x).toNat / 10 ^ (2 - k) % 10)) (exec_bcd x s) (length_decimalDigits _)
      (getElem_decimalDigits (s.getV x)) hi hpc
  · exact store_fetch (f := fun k => s.getV (BitVec.ofNat 4 k)) (exec_storeRegs x s) (length_regBlock s x) (getElem_regBlock s x) hi hpc

/-- Settles O40: the two bytes are those of the fetch, and the decoder takes nothing else. -/
theorem stepRunsDecodedInstruction : Obligations.StepRunsDecodedInstruction := fun s i hh hpc hd => by
  rw [step_of_fetch s hh (fetch_of_lt s hpc)]
  injection hd with hd
  injection hd with hd
  rw [hd]
  rfl

/-- Settles O41: without a word the step is one fatal `raise` on the state with its report output cleared. -/
theorem fetchOutOfRangeHalts : Obligations.FetchOutOfRangeHalts := fun s hh hpc => by
  obtain ⟨hhalted, hpc'⟩ := raise_fatal s.clearReport s.pc.toNat (c := .fetchOutOfRange) rfl
  exact ⟨_, step_of_fetch_none s hh (fetch_of_ge s hpc), reports_raise s.clearReport _ _, hhalted, hpc',
    raise_keeps s.clearReport _ _⟩

/-! ### The form of memory (log entry 1) -/

theorem wf_writeByte {m m' : List Host.Cell} {a : Nat} {v : Byte} (hm : Memory.wf m = true) (h : Memory.writeByte m a v = some m') :
    Memory.wf m' = true := by
  rcases Nat.lt_or_ge a 4096 with ha | ha
  · rw [writeByte_of_lt ha, Option.some.injEq] at h
    rw [← h]
    exact wf_set v ha hm
  · rw [writeByte_of_ge ha] at h
    cases h

/-- Settles O59: a write inside memory is `Memory.set`, and a canonical list is given by its reads. -/
theorem memoryFormIsCanonical : Obligations.MemoryFormIsCanonical :=
  ⟨fun _ _ _ _ => wf_writeByte, fun _ _ => eq_of_lookup⟩

end Sys2Proof.Machine
end

section
/-! PROOFS. The screen (43_display.md R140 to R142), and the key and timer instructions (44_keys_timers_random.md R152 to R155). -/

namespace Sys2Proof.Machine

variable {s : State}

/-! ### Clearing -/

/-- Settles O24: the grid becomes `clearGrid`, whatever `X` is. -/
theorem clearScreenUnsetsPixels : Obligations.ClearScreenUnsetsPixels :=
  ⟨decode_cls, fun _ => ⟨_, rfl, getPixel_clearGrid, rfl, pcAdvances_two rfl, keepsRegs_of_eq rfl, rfl, keepsMemory_of_eq rfl,
    keepsStack_of_eq rfl rfl, ⟨rfl, rfl⟩, ⟨rfl, rfl, rfl⟩, ⟨rfl, rfl⟩⟩⟩

/-! ### Drawing (R141) -/

theorem draw_fb (s : State) (x0 y0 : Byte) (rows : List Byte) :
    (s.draw x0 y0 rows).fb = (drawSprite s.fb x0.toNat y0.toNat rows).1 := rfl

theorem flagByte_eq_one_iff (b : Bool) : flagByte b = 0x01#8 ↔ b = true := by cases b <;> decide

/-- The bit that the sprite at `I` of `DRW Vx, Vy, N` puts on a pixel. -/
def State.spriteAt (s : State) (x y : Reg) (n : Nibble) (px py : Nat) : Bool :=
  spriteBit (fun r => Memory.byteAt s.mem (s.i.toNat + r)) n.toNat (s.getV x).toNat (s.getV y).toNat px py

/-- A draw whose rows are in memory: it XORs the sprite at `I` into the grid, and `VF` is the collision. -/
theorem drw_spec (s : State) (x y : Reg) (n : Nibble) (h : n.toNat = 0 ∨ s.i.toNat + n.toNat ≤ 4096) :
    ∃ rows, exec (.drw x y n) s = .next (s.draw (s.getV x) (s.getV y) rows) ∧
      (∀ px py, getPixel (s.draw (s.getV x) (s.getV y) rows).fb px py = (getPixel s.fb px py ^^ s.spriteAt x y n px py)) ∧
      ((s.draw (s.getV x) (s.getV y) rows).getV regF = 0x01#8 ↔
        ∃ px < 64, ∃ py < 32, getPixel s.fb px py = true ∧ s.spriteAt x y n px py = true) := by
  obtain ⟨rows, hlen, hbytes, he⟩ := exec_drw_of_fits s x y n h
  have hle : rows.length ≤ 32 := by
    have := n.isLt
    omega
  have hbit : ∀ px py, spriteBit (fun r => rows.getD r 0#8) rows.length (s.getV x).toNat (s.getV y).toNat px py =
      s.spriteAt x y n px py := fun px py => by
    rw [hlen]
    exact spriteBit_congr (fun r hr => by rw [List.getD_eq_getElem _ _ (by omega), hbytes]) ..
  refine ⟨rows, he, fun px py => ?_, ?_⟩
  · rw [draw_fb, getPixel_drawSprite _ _ _ _ _ _ hle, hbit]
  · rw [getV_draw, if_pos rfl, flagByte_eq_one_iff, collision_drawSprite _ _ _ _ hle]
    simp only [hbit]

/-- Settles O25: `drw_spec` gives the pixels and the collision, and of the registers a draw writes `VF` alone. -/
theorem drawXorsSprite : Obligations.DrawXorsSprite := fun x y n =>
  ⟨decode_drw x y n, fun s h => by
    obtain ⟨rows, he, hpixel, hflag⟩ := drw_spec s x y n h
    refine ⟨_, he, hpixel, ?_, hflag, rfl, pcAdvances_two rfl, fun k hk => ?_, rfl, keepsMemory_of_eq rfl, keepsStack_of_eq rfl rfl,
      ⟨rfl, rfl⟩, ⟨rfl, rfl, rfl⟩, ⟨rfl, rfl⟩⟩
    · rw [getV_draw, if_pos rfl]
      generalize (drawSprite s.fb (s.getV x).toNat (s.getV y).toNat rows).2 = collision
      cases collision
      · exact .inr rfl
      · exact .inl rfl
    · rw [getV_draw, if_neg hk]⟩

/-- Settles O26: both draws XOR the same bits, so the grid comes back, and the second finds a pixel set where a 1 bit lands exactly if it
was unset before the first. -/
theorem drawTwiceRestoresScreen : Obligations.DrawTwiceRestoresScreen := fun x y n s h => by
  obtain ⟨rows, he, hpixel, -⟩ := drw_spec s x y n h
  refine ⟨_, he, fun hx hy => ?_⟩
  generalize ht : s.draw (s.getV x) (s.getV y) rows = t at *
  have hi : t.i = s.i := by rw [← ht]; rfl
  have hm : t.mem = s.mem := by rw [← ht]; rfl
  have hsprite : t.spriteAt x y n = s.spriteAt x y n := by unfold State.spriteAt; rw [hi, hm, hx, hy]
  obtain ⟨rows', he', hpixel', hflag'⟩ := drw_spec t x y n (by rwa [hi])
  refine ⟨_, he', grid_ext fun px py => ?_, hflag'.trans ?_⟩
  · rw [hpixel', hpixel, hsprite, Bool.xor_assoc, Bool.xor_self, Bool.xor_false]
  · have hset : ∀ px py, s.spriteAt x y n px py = true → (getPixel t.fb px py = true ↔ getPixel s.fb px py = false) := fun px py hb => by
      rw [hpixel, hb, Bool.xor_true, Bool.not_eq_true']
    simp only [hsprite]
    refine exists_congr fun px => and_congr_right fun _ => exists_congr fun py => and_congr_right fun _ => ?_
    exact and_congr_left fun hb => hset px py hb

/-! ### Waiting for a key (R152) -/

theorem takeKey_of_none (s : State) {keys : Keys} (x : Reg) (h : keys = 0#16) : s.takeKey keys x = s := if_pos h

theorem takeKey_of_some (s : State) {keys : Keys} (x : Reg) (h : keys ≠ 0#16) :
    s.takeKey keys x = s.result x (BitVec.ofNat 8 (leastKey keys)) := if_neg h

theorem takeKey_result (s : State) (keys : Keys) (x : Reg) :
    let t := s.takeKey keys x
    if keys = 0x0000#16 then t.pc = s.pc ∧ KeepsRegs s t
    else PcAdvances s t 2 ∧ (t.getV x).toNat < 16 ∧ keys.getLsbD (t.getV x).toNat = true ∧
      (∀ k < (t.getV x).toNat, keys.getLsbD k = false) ∧ ∀ k : Reg, k ≠ x → t.getV k = s.getV k := by
  intro t
  split
  · next h =>
    have ht : t = s := takeKey_of_none s x h
    rw [ht]
    exact ⟨rfl, fun _ => rfl⟩
  · next h =>
    obtain ⟨hlt, hdown, hleast⟩ := leastKey_spec h
    have ht : t = s.result x (BitVec.ofNat 8 (leastKey keys)) := takeKey_of_some s x h
    have hv : (t.getV x).toNat = leastKey keys := by
      rw [ht, getV_result_self, BitVec.toNat_ofNat]
      omega
    rw [hv, ht]
    exact ⟨(result_keeps s x _).1, hlt, hdown, hleast, getV_result_ne s x _⟩

/-- The wait writes its register and `PC` at most. -/
theorem takeKey_keeps (s : State) (keys : Keys) (x : Reg) :
    let t := s.takeKey keys x
    t.keyIndex = s.keyIndex ∧ t.randIndex = s.randIndex ∧ t.i = s.i ∧
      KeepsMemory s t ∧ KeepsScreen s t ∧ KeepsStack s t ∧ KeepsTimers s t ∧ KeepsStatus s t := by
  intro t
  by_cases h : keys = 0#16
  · have ht : t = s := takeKey_of_none s x h
    rw [ht]
    exact ⟨rfl, rfl, rfl, keepsMemory_of_eq rfl, keepsScreen_of_eq rfl rfl, keepsStack_of_eq rfl rfl, ⟨rfl, rfl⟩, ⟨rfl, rfl, rfl⟩⟩
  · have ht : t = s.result x (BitVec.ofNat 8 (leastKey keys)) := takeKey_of_some s x h
    obtain ⟨-, hi, hmem, hscreen, hstack, htimers, hstatus, hkeys, hrand⟩ := result_keeps s x (BitVec.ofNat 8 (leastKey keys))
    rw [ht]
    exact ⟨hkeys, hrand, hi, hmem, hscreen, hstack, htimers, hstatus⟩

/-- Settles O28: the snapshot is used up, and the rest is `State.takeKey`. -/
theorem waitTakesLeastKey : Obligations.WaitTakesLeastKey := fun x =>
  ⟨decode_waitKey x, fun s =>
    ⟨_, exec_waitKey x s, takeKey_result s.keysRead s.keys x, takeKey_keeps s.keysRead s.keys x⟩⟩

/-! ### The timers (R154, R155) -/

/-- Settles O30: the update writes `DT` and `PC`. -/
theorem delayTimerSet : Obligations.DelayTimerSet := fun x =>
  ⟨decode_setDt x, fun _ => ⟨_, rfl, rfl, rfl, pcAdvances_two rfl, keepsRegs_of_eq rfl, rfl, keepsMemory_of_eq rfl,
    keepsScreen_of_eq rfl rfl, keepsStack_of_eq rfl rfl, ⟨rfl, rfl, rfl⟩, ⟨rfl, rfl⟩⟩⟩

theorem soundOn_iff (s : State) : s.soundOn = true ↔ s.st.toNat ≠ 0 := by
  rw [State.soundOn, bne_iff_ne, ne_eq, ne_eq, ← BitVec.toNat_inj]
  rfl

/-- Settles O31: the update writes `ST` and `PC`, and `SOUND_ON` is read from `ST`. -/
theorem soundTimerSet : Obligations.SoundTimerSet := fun x =>
  ⟨decode_setSt x, fun _ => ⟨_, rfl, rfl, rfl, soundOn_iff _, pcAdvances_two rfl, keepsRegs_of_eq rfl, rfl, keepsMemory_of_eq rfl,
    keepsScreen_of_eq rfl rfl, keepsStack_of_eq rfl rfl, ⟨rfl, rfl, rfl⟩, ⟨rfl, rfl⟩⟩⟩

end Sys2Proof.Machine
end

section
/-! PROOFS. The host's transitions and the order it keeps (70_reset_and_hazards.md R200, R201, 60_exceptions.md R181, 20_memory.md R57). -/

namespace Sys2Proof.Machine

variable {s t : State}

/-! ### Reset (R26, R200) -/

theorem byteAt_nil (a : Nat) : Memory.byteAt [] a = (Memory.unlisted a).getD (Config.memInit a) := by
  rw [Memory.byteAt, Memory.lookup]
  cases Memory.unlisted a <;> rfl

theorem unlisted_glyph {a : Nat} (h : a < 80) : Memory.unlisted (0x050 + a) = glyphRom[a]? := by
  rw [Memory.unlisted, if_pos (by simp only [Config.glyphBase, Config.glyphEnd]; omega), Nat.add_sub_cancel_left]

theorem unlisted_of_not_glyph {a : Nat} (h : a < 0x050 ∨ 0x0A0 ≤ a) : Memory.unlisted a = none :=
  if_neg (by simp only [Config.glyphBase, Config.glyphEnd]; omega)

theorem length_glyphRom : glyphRom.length = 80 := rfl

theorem byteAt_reset_glyph {a : Nat} (h : a < 80) : some (Memory.byteAt State.reset.mem (0x050 + a)) = glyphRom[a]? := by
  have hlen : a < glyphRom.length := by rwa [length_glyphRom]
  show some (Memory.byteAt [] (0x050 + a)) = _
  rw [byteAt_nil, unlisted_glyph h, List.getElem?_eq_getElem hlen, Option.getD_some]

theorem byteAt_reset_of_not_glyph {a : Nat} (h : a < 0x050 ∨ 0x0A0 ≤ a) : Memory.byteAt State.reset.mem a = Config.memInit a := by
  show Memory.byteAt [] a = _
  rw [byteAt_nil, unlisted_of_not_glyph h, Option.getD_none]

theorem getV_reset (x : Reg) : State.reset.getV x = 0x00#8 := Vector.getElem_replicate _

/-- Settles O52: memory lists nothing at reset, so that an address holds what an unlisted one is known to hold. -/
theorem resetValues : Obligations.ResetValues :=
  ⟨fun _ => rfl, rfl, getPixel_clearGrid, fun _ => byteAt_reset_glyph, fun _ => byteAt_reset_of_not_glyph, getV_reset, rfl, rfl, rfl, rfl,
    rfl, rfl, rfl⟩

/-! ### Tick (R181) -/

theorem toNat_tickTimer (b : Byte) : (tickTimer b).toNat = b.toNat - 1 := by
  unfold tickTimer
  split
  · next h => rw [toNat_sub_byte, BitVec.toNat_ofNat]; omega
  · omega

/-- Settles O55: a tick is `tickTimer` on both timers, which is subtraction that stops at 0. -/
theorem tickCountsTimersDown : Obligations.TickCountsTimersDown := fun s =>
  ⟨s.tick, rfl, toNat_tickTimer s.dt, toNat_tickTimer s.st, rfl, keepsRegs_of_eq rfl, rfl, keepsMemory_of_eq rfl,
    keepsScreen_of_eq rfl rfl, keepsStack_of_eq rfl rfl, ⟨rfl, rfl, rfl⟩, ⟨rfl, rfl⟩⟩

/-! ### Load (R201) -/

theorem load_of_fits {bytes : List Byte} (h : bytes.length ≤ 3584) (s : State) :
    ∃ m, Memory.writeBlock s.mem 0x200 bytes = some m ∧ fire (.load bytes) s = .next { s with mem := m } := by
  rcases load_cases s bytes with hl | ⟨hlt, -⟩
  · exact hl
  · omega

theorem load_of_exceeds {bytes : List Byte} (h : 3584 < bytes.length) (s : State) :
    fire (.load bytes) s = .refused (.programTooLong bytes.length) := by
  have hne : bytes ≠ [] := List.ne_nil_of_length_pos (by omega)
  have hm : Memory.writeBlock s.mem 0x200 bytes = none := writeBlock_eq_none.2 ⟨hne, by omega⟩
  rcases load_cases s bytes with ⟨m, hm', -⟩ | ⟨-, hl⟩
  · rw [hm] at hm'
    cases hm'
  · exact hl

/-- Settles O57: a program that fits is one block write at 0x200, and a longer one leaves memory. -/
theorem loadPlacesProgram : Obligations.LoadPlacesProgram := fun bytes s => by
  refine ⟨fun h => ?_, fun h => load_of_exceeds h s⟩
  obtain ⟨m, hm, hl⟩ := load_of_fits h s
  refine ⟨_, hl, fun k hk => ?_, fun a ha => ?_, rfl, keepsRegs_of_eq rfl, rfl, keepsScreen_of_eq rfl rfl, keepsStack_of_eq rfl rfl,
    ⟨rfl, rfl⟩, ⟨rfl, rfl, rfl⟩, ⟨rfl, rfl⟩⟩
  · rw [byteAt_writeBlock hm, dif_pos (by omega)]
    simp only [Nat.add_sub_cancel_left]
  · rw [byteAt_writeBlock hm, dif_neg (by omega)]

/-! ### The order of the host's transitions (R57) -/

/-- A run of a loaded program with no new construction goes on loaded after its first transition, which is no `load`. -/
theorem fireAll_loaded_cons {tr : Transition} {ts : List Transition} (hr : .reset ∉ tr :: ts) (h : fireAll .loaded (tr :: ts) s = .next t) :
    (∀ bytes, tr ≠ .load bytes) ∧ .reset ∉ ts ∧ ∃ u, fire tr s = .next u ∧ fireAll .loaded ts u = .next t := by
  rw [List.mem_cons, not_or] at hr
  obtain ⟨p, u, hp, hu, hrest⟩ := fireAll_cons.1 h
  obtain rfl := after_loaded hp (Ne.symm hr.1)
  exact ⟨after_loaded_ne_load hp, hr.2, u, hu, hrest⟩

theorem not_mem_load_of_loaded {ts : List Transition} (hr : .reset ∉ ts) (h : fireAll .loaded ts s = .next t) (bytes : List Byte) :
    .load bytes ∉ ts := by
  induction ts generalizing s with
  | nil => exact List.not_mem_nil
  | cons tr ts ih =>
    obtain ⟨hne, hr', u, -, hrest⟩ := fireAll_loaded_cons hr h
    rw [List.mem_cons, not_or]
    exact ⟨(hne bytes).symm, ih hr' hrest⟩

/-- A transition that is neither a construction nor a `load` changes a byte only as a step that stores to it. -/
theorem fire_mem_of_ne {tr : Transition} {a : Nat} (hr : tr ≠ .reset) (hl : ∀ bytes, tr ≠ .load bytes) (h : fire tr s = .next t)
    (hne : Memory.byteAt t.mem a ≠ Memory.byteAt s.mem a) : tr = .step ∧ StepEffect s t := by
  cases tr with
  | reset => exact absurd rfl hr
  | load bytes => exact absurd rfl (hl bytes)
  | step => exact ⟨rfl, stepEffect_of_step h⟩
  | tick | present =>
    cases h
    exact absurd rfl hne

theorem fireAll_loaded_cons_of_fire {tr : Transition} {ts : List Transition} {u : State} (hr : tr ≠ .reset) (hl : ∀ bytes, tr ≠ .load bytes)
    (h : fire tr s = .next u) : fireAll .loaded (tr :: ts) s = fireAll .loaded ts u := by
  cases tr with
  | reset => exact absurd rfl hr
  | load bytes => exact absurd rfl (hl bytes)
  | step | tick | present => simp only [fireAll, Phase.after, h]

/-- A byte that differs at the end of a run of a loaded program was stored to by some step of the run. -/
theorem exists_store_of_ne {ts : List Transition} {a : Nat} (hr : .reset ∉ ts) (h : fireAll .loaded ts s = .next t)
    (hne : Memory.byteAt t.mem a ≠ Memory.byteAt s.mem a) :
    ∃ pre post u op x, ts = pre ++ .step :: post ∧ fireAll .loaded pre s = .next u ∧ u.halted = false ∧ u.fetch = some op ∧
      ((decode op = .bcd x ∧ u.i.toNat ≤ a ∧ a ≤ u.i.toNat + 2) ∨
       (decode op = .storeRegs x ∧ u.i.toNat ≤ a ∧ a ≤ u.i.toNat + x.toNat)) := by
  induction ts generalizing s with
  | nil =>
    cases h
    exact absurd rfl hne
  | cons tr ts ih =>
    obtain ⟨hl, hr', v, hv, hrest⟩ := fireAll_loaded_cons hr h
    have htr : tr ≠ .reset := fun he => hr (he ▸ List.mem_cons_self)
    by_cases hsame : Memory.byteAt v.mem a = Memory.byteAt s.mem a
    · obtain ⟨pre, post, u, op, x, rfl, hpre, hstore⟩ := ih hr' hrest (hsame ▸ hne)
      exact ⟨tr :: pre, post, u, op, x, rfl, (fireAll_loaded_cons_of_fire htr hl hv).trans hpre, hstore⟩
    · obtain ⟨rfl, he⟩ := fire_mem_of_ne htr hl hv hsame
      obtain ⟨hh, -, op, x, hf, hd⟩ := he.mem_of_ne hsame
      exact ⟨[], ts, s, op, x, rfl, rfl, hh, hf, hd⟩

theorem onlyTicksAndPresents_nil : OnlyTicksAndPresents [] := fun _ h => absurd h List.not_mem_nil

theorem onlyTicksAndPresents_cons {tr : Transition} {ts : List Transition} (htr : tr = .tick ∨ tr = .present)
    (hts : OnlyTicksAndPresents ts) : OnlyTicksAndPresents (tr :: ts) := List.forall_mem_cons.2 ⟨htr, hts⟩

/-- A run from a construction, to before the next, is ticks and presents alone, or has one `load` behind them. -/
theorem run_from_construction {ts : List Transition} (hr : .reset ∉ ts) (h : fireAll .constructed ts s = .next t) :
    OnlyTicksAndPresents ts ∨
      ∃ pre bytes post, ts = pre ++ .load bytes :: post ∧ OnlyTicksAndPresents pre ∧ ∀ bytes', .load bytes' ∉ post := by
  induction ts generalizing s with
  | nil => exact .inl onlyTicksAndPresents_nil
  | cons tr ts ih =>
    rw [List.mem_cons, not_or] at hr
    obtain ⟨htr, hr⟩ := hr
    obtain ⟨p, u, hp, -, hrest⟩ := fireAll_cons.1 h
    cases tr with
    | reset => exact absurd rfl htr
    | step => cases hp
    | load bytes =>
      cases hp
      exact .inr ⟨[], bytes, ts, rfl, onlyTicksAndPresents_nil, not_mem_load_of_loaded hr hrest⟩
    | tick | present =>
      cases hp
      rcases ih hr hrest with ho | ⟨pre, bytes, post, rfl, hpre, hpost⟩
      · exact .inl (onlyTicksAndPresents_cons (by simp) ho)
      · exact .inr ⟨_ :: pre, bytes, post, rfl, onlyTicksAndPresents_cons (by simp) hpre, hpost⟩

theorem fireAll_load_cons {bytes : List Byte} {u : State} (ts : List Transition) (h : fire (.load bytes) s = .next u) :
    fireAll .constructed (.load bytes :: ts) s = fireAll .loaded ts u := by
  simp only [fireAll, Phase.after, h]

/-- After ticks and presents alone, a `load` of a program that fits is taken. -/
theorem fireAll_load_of_fits {pre : List Transition} {bytes : List Byte} (s : State) (hpre : OnlyTicksAndPresents pre)
    (hlen : bytes.length ≤ 3584) :
    ∃ t, ∀ ts, fireAll .constructed (pre ++ .load bytes :: ts) s = fireAll .loaded ts t := by
  obtain ⟨u, hu, -⟩ := fireAll_ticks_append .constructed [] s hpre
  obtain ⟨m, -, hl⟩ := load_of_fits hlen u
  refine ⟨{ u with mem := m }, fun ts => ?_⟩
  obtain ⟨u', hu', happ⟩ := fireAll_ticks_append .constructed (.load bytes :: ts) s hpre
  obtain rfl : u' = u := Host.Outcome.next.inj (hu'.symm.trans hu)
  rw [happ, fireAll_load_cons ts hl]

/-- Settles O60: the order is that of `Phase.after`, from either phase, and the bytes follow from `exists_store_of_ne`. -/
theorem hostLoadsOnce : Obligations.HostLoadsOnce := by
  refine ⟨fun pre ts s hpre => ?_, fun pre bytes ts s hpre hlen => ?_, fun pre bytes ts s u hr h => ?_, fun p ts s => ?_,
    fun ts s t hr h => run_from_construction hr h,
    fun ts s t hr h => ⟨not_mem_load_of_loaded hr h, fun a => exists_store_of_ne hr h⟩⟩
  · obtain ⟨u, -, happ⟩ := fireAll_ticks_append .constructed (.step :: ts) s hpre
    rw [happ]
    rfl
  · obtain ⟨t, ht⟩ := fireAll_load_of_fits s hpre hlen
    exact ⟨t, ht [], ht ts⟩
  · rw [fireAll_loaded_append _ hr h]
    rfl
  · cases p <;> rfl

end Sys2Proof.Machine
end
